-- ==== Sys2Proof/Word.lean ====
section
/-! DEFINITION. The word types of the block (00_scope R6, R7, R9): every value is unsigned, bit 0 is the least
significant bit. Arithmetic on them stands in Machine/Ops.lean. -/

namespace Sys2Proof

/-- A 64-bit word: a lane, BUF, LEN, RESULT, a command operand, rd_data (R6: LANE_W, DATA_W, LEN_W, OUT_W). -/
abbrev Word := BitVec 64

/-- A byte of the stream (R9). -/
abbrev Byte := BitVec 8

/-- A 4-bit field: OP, N, C, D, rd_addr, CR, DR (R20, R49, R56). -/
abbrev Nibble := BitVec 4

/-- The 16-bit command word CMD (R6: CMD_W; R49). -/
abbrev CmdWord := BitVec 16

end Sys2Proof
end

