-- ==== Sys2Proof/Syntax.lean ====
section
/-! DEFINITION. What the host can put on the block's ports, and the instructions of spec/opcode_table.json. -/

namespace Sys2Proof

/-- One transaction on the command port: the command word and its two operands (R49, R28: cmd_word, cmd_data0,
cmd_data1). -/
structure Transaction where
  cmd   : CmdWord
  data0 : Word
  data1 : Word
deriving DecidableEq, Repr

/-- One access to one of the block's two host-visible spaces (R37). -/
inductive PortAccess where
  /-- A transaction on the command port. -/
  | command (t : Transaction)
  /-- A read of the register that `addr`, on rd_addr, selects (R56). -/
  | read (addr : Nibble)
deriving DecidableEq, Repr

/-- One host operation of a run: COMMAND, RD or RESET (R111, R112). -/
inductive HostOp where
  | access (p : PortAccess)
  /-- rst = 1 on a clock edge (R103): a pin, not a command word (R78). -/
  | reset
deriving DecidableEq, Repr

/-- The instructions: one constructor per row of spec/opcode_table.json, with the operands the row uses.
Operand bits a command ignores (R50) are no part of it. -/
inductive Instr where
  /-- NOP (R69). -/
  | nop
  /-- INIT c, d, key0, key1 (R70). -/
  | init (c d : Nibble) (key0 key1 : Word)
  /-- WRITE n, data (R71). -/
  | write (n : Nibble) (data0 : Word)
  /-- FINISH (R74). -/
  | finish
  /-- RD a, a read of the read port (R79). -/
  | rd (a : Nibble)
deriving DecidableEq, Repr

end Sys2Proof
end

