-- ==== Sys2Proof/WellFormed.lean ====
section
/-! DEFINITION. The one check an instruction's fields must pass beyond their widths: a WRITE names at most 8 bytes
(30_encoding R51, R52). INIT with C = 0 or D = 0 is well-formed: it is an INIT that raises CONFIG (R51). -/

namespace Sys2Proof

/-- The instruction has an encoding the decoder takes (R51). -/
def Instr.wellFormed : Instr → Bool
  | .nop => true
  | .init _ _ _ _ => true
  | .write n _ => decide (n.toNat ≤ 8)
  | .finish => true
  | .rd _ => true

/-- `Instr.wellFormed` as a proposition. -/
abbrev Instr.WellFormed (i : Instr) : Prop := i.wellFormed = true

end Sys2Proof
end

