-- ==== Sys2Proof/Decode.lean ====
section
/-! DEFINITION. Decoding what arrives on a port, total and rejecting by name (30_encoding R49..R56), and the encoder.
The numbering of a table word's bits (`tableAccess`) is the model's own: log entry 13. -/

namespace Sys2Proof

/-- OP = CMD[3:0] (R49). -/
def opField (w : CmdWord) : Nibble := w.extractLsb' 0 4

/-- N = CMD[7:4] (R49). -/
def nField (w : CmdWord) : Nibble := w.extractLsb' 4 4

/-- C = CMD[11:8] (R49). -/
def cField (w : CmdWord) : Nibble := w.extractLsb' 8 4

/-- D = CMD[15:12] (R49). -/
def dField (w : CmdWord) : Nibble := w.extractLsb' 12 4

/-- Why a command word is ILLEGAL: the four cases of R53, with WRITE's two told apart (log entry 14). -/
inductive IllegalWord where
  /-- Opcodes 0x4..0xF. -/
  | reservedOpcode (op : Nibble)
  /-- NOP with a nonzero field. -/
  | nopFields
  /-- INIT with N != 0. -/
  | initCount
  /-- WRITE with C or D nonzero. -/
  | writeFields
  /-- WRITE with N in 9..15. -/
  | writeCount
  /-- FINISH with a nonzero field. -/
  | finishFields
deriving DecidableEq, Repr

/-- What a port access decodes to: an instruction, or the spec's ILLEGAL with its reason. -/
inductive Decoded where
  | instr (i : Instr)
  | illegal (why : IllegalWord)
deriving DecidableEq, Repr

/-- The reason an ILLEGAL word is illegal (R53). -/
def whyIllegal (w : CmdWord) : IllegalWord :=
  if opField w = 0x0#4 then .nopFields
  else if opField w = 0x1#4 then .initCount
  else if opField w = 0x2#4 then
    if cField w = 0#4 ∧ dField w = 0#4 then .writeCount else .writeFields
  else if opField w = 0x3#4 then .finishFields
  else .reservedOpcode (opField w)

/-- The decoder of command words, total on all of them (R52). It tests `cmd` alone; the operands only become fields of
the instruction that uses them (R50). -/
def decodeCommand (t : Transaction) : Decoded :=
  if t.cmd = 0x0000#16 then .instr .nop
  else if opField t.cmd = 0x1#4 ∧ nField t.cmd = 0#4 then
    .instr (.init (cField t.cmd) (dField t.cmd) t.data0 t.data1)
  else if opField t.cmd = 0x2#4 ∧ cField t.cmd = 0#4 ∧ dField t.cmd = 0#4 ∧ (nField t.cmd).toNat ≤ 8 then
    .instr (.write (nField t.cmd) t.data0)
  else if t.cmd = 0x0003#16 then .instr .finish
  else .illegal (whyIllegal t.cmd)

/-- What arrives on a port, decoded: a read bypasses the command decoder and every address is legal (R56). -/
def decode : PortAccess → Decoded
  | .command t => decodeCommand t
  | .read a => .instr (.rd a)

/-- The command word `DDDD CCCC NNNN OOOO` (R49, R57). -/
def commandWord (d c n op : Nibble) : CmdWord :=
  (d.setWidth 16 <<< 12) ||| (c.setWidth 16 <<< 8) ||| (n.setWidth 16 <<< 4) ||| op.setWidth 16

/-- The port access that carries an instruction; every operand a command ignores is 0, as the assembler fills it (R57). -/
def encode : Instr → PortAccess
  | .nop => .command { cmd := commandWord 0 0 0 0, data0 := 0, data1 := 0 }
  | .init c d key0 key1 => .command { cmd := commandWord d c 0 1, data0 := key0, data1 := key1 }
  | .write n data0 => .command { cmd := commandWord 0 0 n 2, data0 := data0, data1 := 0 }
  | .finish => .command { cmd := commandWord 0 0 0 3, data0 := 0, data1 := 0 }
  | .rd a => .read a

/-- The port access whose bits are `w` as spec/opcode_table.json numbers them, with every bit above `nbits` 0.
A row of 16 bits is a command word: CMD is bits 15..0 and the operands follow it, DATA0 in bits 79..16 and DATA1 in bits
143..80. The RD row is 4 bits (one byte when counted in whole bytes): rd_addr is bits 3..0. Log entry 13. -/
def tableAccess (nbits w : Nat) : PortAccess :=
  if nbits < 16 then .read (BitVec.ofNat 4 (w % 2 ^ nbits))
  else .command
    { cmd := BitVec.ofNat 16 (w % 2 ^ nbits)
      data0 := BitVec.ofNat 64 ((w % 2 ^ nbits) >>> 16)
      data1 := BitVec.ofNat 64 ((w % 2 ^ nbits) >>> 80) }

/-- The instruction the decoder reads from a word of the opcode table; none where the word is ILLEGAL. -/
def decodeTableWord (nbits w : Nat) : Option Instr :=
  match decode (tableAccess nbits w) with
  | .instr i => some i
  | .illegal _ => none

end Sys2Proof
end

