-- ==== Sys2Proof/Config.lean ====
section
/-! DEFINITION. What is fixed when the block is built (00_scope R6). RAW_STATE_ACCESS is the only parameter a model takes
(R6, 92_eei_decisions D15). The latency CMD_LATENCY, which is open too (D22), is an argument of the clocked layer
(Machine/Clocked.lean). No value of this block is left free by the spec, so there is no free value here. -/

namespace Sys2Proof

/-- The build parameters of one block (10_state: `Config`). -/
structure Config where
  /-- RAW_STATE_ACCESS: whether read addresses 0x8..0xE show the lanes, the buffer and the counter (R83, R84). -/
  rawStateAccess : Bool
deriving DecidableEq, Repr

/-- The default build: RAW_STATE_ACCESS = false (R6, R84). -/
def Config.default : Config := { rawStateAccess := false }

end Sys2Proof
end

