-- ==== Sys2Proof/Machine/State.lean ====
section
/-! DEFINITION. The state of the block (10_state R15..R23, R30), and beside it the host's side of a run (70_reset R112),
as plain data. There is no memory, no pc and no flag register (R26, R27, R38). -/

namespace Sys2Proof.Machine

/-- The lane register file V[0]..V[3] (R15). -/
structure Lanes where
  v0 : Word
  v1 : Word
  v2 : Word
  v3 : Word
deriving DecidableEq, Repr

/-- PHASE, the control state (R21). -/
inductive Phase where
  /-- No hasher instance. -/
  | unkeyed
  /-- An instance is accepting input. -/
  | absorbing
  /-- FINISH has produced RESULT. -/
  | finished
  /-- A malformed command arrived while ABSORBING. -/
  | faulted
deriving DecidableEq, Repr

/-- ERR, the sticky error register (R22). -/
inductive Err where
  | none
  | config
  | invalidState
  | badCommand
deriving DecidableEq, Repr

/-- The errors a command can raise (R87): ERR's values but NONE. -/
inductive Cause where
  /-- INIT with C = 0 or D = 0. -/
  | config
  /-- WRITE or FINISH with PHASE != ABSORBING. -/
  | invalidState
  /-- A command word that decodes to ILLEGAL. -/
  | badCommand
deriving DecidableEq, Repr

/-- The block's own state: every element 10_state.md lists, and nothing else. -/
structure Block where
  /-- V[0]..V[3] (R15). -/
  lanes  : Lanes
  /-- BUF: pending byte j is at bits [8j+7:8j] (R17). -/
  buf    : Word
  /-- PLEN, the number of pending bytes; 3 bits hold every value visible between commands (R18; log entry 3). -/
  plen   : BitVec 3
  /-- LEN, the total-length counter, modulo 2^64 (R19). -/
  len    : Word
  /-- CR, the compression rounds (R20). -/
  cr     : Nibble
  /-- DR, the finalization rounds (R20). -/
  dr     : Nibble
  /-- PHASE (R21). -/
  phase  : Phase
  /-- ERR (R22). -/
  err    : Err
  /-- RESULT (R23). -/
  result : Word
deriving DecidableEq, Repr

/-- The machine's state: the block, the parameter it was built with, and the host's side of the run. -/
structure State where
  /-- The block (10_state.md). -/
  block : Block
  /-- The build parameters: constant, no step writes them (R84; log entry 2). -/
  cfg   : Config
  /-- The host operations not yet issued, the next one first (R112; log entry 1). -/
  ops   : List HostOp
  /-- The values the RD operations have returned on rd_data, oldest first (R79, R112; log entry 5). -/
  reads : List Word
deriving DecidableEq, Repr

/-- The reasons the machine could stop with a fault. There are none: the block never faults, halts or sticks, and every
error is an ordinary state change (R68, R112). -/
inductive Fault where
deriving DecidableEq, Repr

/-- The reasons a step can be refused. -/
inductive Refusal where
  /-- Raised by an arm of exec whose instruction has no meaning yet; safe. No arm raises it: every instruction of the
  table has its meaning. -/
  | notModelled (mnemonic : String)
deriving DecidableEq, Repr

/-- The block right after reset (R30). -/
def Block.reset : Block where
  lanes  := { v0 := 0, v1 := 0, v2 := 0, v3 := 0 }
  buf    := 0
  plen   := 0
  len    := 0
  cr     := 2
  dr     := 4
  phase  := .unkeyed
  err    := .none
  result := 0

/-- A block of the build `cfg` right after reset, with no host operation waiting and nothing read. -/
def State.resetOf (cfg : Config) : State where
  block := Block.reset
  cfg   := cfg
  ops   := []
  reads := []

/-- The machine right after reset: the reset block of the default build (R30, R103; R6: RAW_STATE_ACCESS defaults to
false). -/
def State.reset : State := State.resetOf Config.default

end Sys2Proof.Machine
end

