-- ==== Sys2Proof/Machine/Ops.lean ====
section
/-! DEFINITION. The named operations over the block's registers: the lane datapath of 40_sipstate_datapath.md, raising an
error (60_exceptions R88), the reset event (70_reset R103), and the named updates of State. An error is not a trap: nothing
is saved and there is no return (R90, R91); the way back is the INIT command or reset. -/

namespace Sys2Proof.Machine

/-! ### Word primitives -/

/-- `a +64 b` (R59): the carry out is discarded. -/
def add64 (a b : Word) : Word := a + b

/-- `a ^ b` (R60). -/
def xor64 (a b : Word) : Word := a ^^^ b

/-- Left rotation by a fixed amount, 0 < r < 64 (R61). -/
def rotl64 (a : Word) (r : Nat) : Word := (a <<< r) ||| (a >>> (64 - r))

/-! ### Constants (R62) -/

/-- C0, from "somepseu". -/
def initC0 : Word := 0x736f6d6570736575#64

/-- C1, from "dorandom". -/
def initC1 : Word := 0x646f72616e646f6d#64

/-- C2, from "lygenera". -/
def initC2 : Word := 0x6c7967656e657261#64

/-- C3, from "tedbytes". -/
def initC3 : Word := 0x7465646279746573#64

/-- The finalization constant, a change to the low byte of V[2] only (R66). -/
def finalMark : Word := 0x00000000000000FF#64

/-! ### SipRound and the lane operations -/

/-- One SipRound, its 14 steps in the order of R63. -/
def sipRound (v : Lanes) : Lanes :=
  let v0 := add64 v.v0 v.v1
  let v1 := rotl64 v.v1 13
  let v1 := xor64 v1 v0
  let v0 := rotl64 v0 32
  let v2 := add64 v.v2 v.v3
  let v3 := rotl64 v.v3 16
  let v3 := xor64 v3 v2
  let v0 := add64 v0 v3
  let v3 := rotl64 v3 21
  let v3 := xor64 v3 v0
  let v2 := add64 v2 v1
  let v1 := rotl64 v1 17
  let v1 := xor64 v1 v2
  let v2 := rotl64 v2 32
  { v0 := v0, v1 := v1, v2 := v2, v3 := v3 }

/-- `repeat n: SipRound()` (R10). -/
def sipRounds : Nat → Lanes → Lanes
  | 0, v => v
  | n + 1, v => sipRounds n (sipRound v)

/-- LaneInit (R64). -/
def laneInit (key0 key1 : Word) : Lanes where
  v0 := xor64 key0 initC0
  v1 := xor64 key1 initC1
  v2 := xor64 key0 initC2
  v3 := xor64 key1 initC3

/-- `V[0] <- V[0] ^ m`. -/
def Lanes.xorV0 (m : Word) (v : Lanes) : Lanes := { v with v0 := xor64 v.v0 m }

/-- `V[2] <- V[2] ^ m`. -/
def Lanes.xorV2 (m : Word) (v : Lanes) : Lanes := { v with v2 := xor64 v.v2 m }

/-- `V[3] <- V[3] ^ m`. -/
def Lanes.xorV3 (m : Word) (v : Lanes) : Lanes := { v with v3 := xor64 v.v3 m }

/-- AbsorbBlock on the lanes with `cr` compression rounds (R65). -/
def absorbLanes (cr : Nat) (m : Word) (v : Lanes) : Lanes :=
  (sipRounds cr (v.xorV3 m)).xorV0 m

/-- Finalize on the lanes (R66): the final block, then the 0xff XOR, then `dr` rounds (90_conflicts C1). -/
def finalizeLanes (cr dr : Nat) (b : Word) (v : Lanes) : Lanes :=
  sipRounds dr ((absorbLanes cr b v).xorV2 finalMark)

/-- The 64-bit output of Finalize: `V[0] ^ V[1] ^ V[2] ^ V[3]` (R66). -/
def Lanes.digest (v : Lanes) : Word := xor64 (xor64 (xor64 v.v0 v.v1) v.v2) v.v3

/-! ### Operations on the block -/

/-- A write of the whole lane file: the only way any operation changes a lane (R16). -/
def Block.setLanes (v : Lanes) (b : Block) : Block := { b with lanes := v }

/-- A write of the input buffer and its two counts. -/
def Block.setPending (buf : Word) (plen : BitVec 3) (len : Word) (b : Block) : Block :=
  { b with buf := buf, plen := plen, len := len }

/-- AbsorbBlock(m) on the block: it reads CR and writes the lanes (R65). -/
def Block.absorbBlock (m : Word) (b : Block) : Block := b.setLanes (absorbLanes b.cr.toNat m b.lanes)

/-- The ERR code of an error (R87). -/
def Cause.err : Cause → Err
  | .config => .config
  | .invalidState => .invalidState
  | .badCommand => .badCommand

/-- PHASE after an error (R88). -/
def Cause.phaseAfter : Cause → Phase → Phase
  | .config, _ => .unkeyed
  | .invalidState, p => p
  | .badCommand, .absorbing => .faulted
  | .badCommand, p => p

/-- `raise E` (R88): ERR and PHASE as the cause says, nothing else. -/
def Block.raise (e : Cause) (b : Block) : Block :=
  { b with err := e.err, phase := e.phaseAfter b.phase }

/-! ### Named updates of the machine's state -/

/-- The state with another block. -/
def State.setBlock (b : Block) (s : State) : State := { s with block := b }

/-- The state with another queue of host operations. -/
def State.setOps (ops : List HostOp) (s : State) : State := { s with ops := ops }

/-- The state after the host has taken the value `w` from rd_data. -/
def State.logRead (w : Word) (s : State) : State := { s with reads := s.reads ++ [w] }

/-- The reset event (R103): every element of the block takes its reset value, whatever it was; the host's queue, its log
and the build stay (log entry 7). -/
def State.resetBlock (s : State) : State := s.setBlock Block.reset

end Sys2Proof.Machine
end

