-- ==== Sys2Proof/Machine/Operands.lean ====
section
/-! DEFINITION. The operand forms: byte lanes of a word and little-endian packing (00_scope R9; 20_memory R32..R34), the
byte packer of WRITE (41_commands R71) and the final block of FINISH (R73). -/

namespace Sys2Proof.Machine

/-- `byte_k(w) = w[8k+7:8k]` (R9). -/
def byteOf (w : Word) (k : Nat) : Byte := w.extractLsb' (8 * k) 8

/-- `LE64(b0, b1, ...)`, the first byte least significant (R9, R32); missing bytes are zero. -/
def le64 : List Byte → Word
  | [] => 0
  | b :: bs => b.setWidth 64 ||| (le64 bs <<< 8)

/-- The stream bytes of a WRITE, byte 0 first: `byte_k(DATA0)` for k < N (R33). -/
def operandBytes (n : Nat) (data0 : Word) : List Byte := (List.range n).map (byteOf data0)

/-- `DATA0 & (2^(8n) - 1)`: the operand bytes a WRITE of n bytes takes, in place (R72). -/
def lowBytes (n : Nat) (data0 : Word) : Word := data0 &&& BitVec.ofNat 64 (2 ^ (8 * n) - 1)

/-- BUF with the byte `x` placed at position PLEN (R71, first line of the loop). -/
def Block.filled (x : Byte) (b : Block) : Word := b.buf ||| (x.setWidth 64 <<< (8 * b.plen.toNat))

/-- One turn of WRITE's byte loop (R71): place the byte, count it, and absorb and clear the buffer when it is full. -/
def Block.takeByte (x : Byte) (b : Block) : Block :=
  if b.plen.toNat + 1 = 8 then (b.absorbBlock (b.filled x)).setPending 0 0 (add64 b.len 1)
  else b.setPending (b.filled x) (b.plen + 1) (add64 b.len 1)

/-- WRITE's byte loop (R71): the bytes in stream order. -/
def Block.takeBytes : List Byte → Block → Block
  | [], b => b
  | x :: xs, b => Block.takeBytes xs (b.takeByte x)

/-- The final block `BUF | (zext_64(LEN[7:0]) << 56)` (R73). -/
def Block.finalBlock (b : Block) : Word := b.buf ||| ((b.len.setWidth 8).setWidth 64 <<< 56)

end Sys2Proof.Machine
end

