-- ==== Sys2Proof/Machine/Commands.lean ====
section
/-! DEFINITION. The four commands (41_commands.md): NOP, INIT, WRITE, FINISH. Each is a change of the block
(`Block.construct`, `Block.write`, `Block.finish`) and its meaning in the machine. -/

namespace Sys2Proof.Machine

/-- NOP (R69): no state change, in every phase. -/
def execNop (s : State) : Host.Outcome State Fault Refusal := .next s

/-- A fresh hasher instance: the last seven lines of INIT (R70). -/
def Block.freshInstance (c d : Nibble) (key0 key1 : Word) (b : Block) : Block :=
  { b.setLanes (laneInit key0 key1) with
    buf := 0, plen := 0, len := 0, cr := c, dr := d, phase := .absorbing, err := .none }

/-- INIT on the block (R70): RESULT is cleared first, on the CONFIG path too. -/
def Block.construct (c d : Nibble) (key0 key1 : Word) (b : Block) : Block :=
  let b := { b with result := 0 }
  if c = 0 ∨ d = 0 then b.raise .config else b.freshInstance c d key0 key1

/-- INIT (R70). -/
def execInit (c d : Nibble) (key0 key1 : Word) (s : State) : Host.Outcome State Fault Refusal :=
  .next (s.setBlock (s.block.construct c d key0 key1))

/-- WRITE of n bytes on the block (R71): the phase check comes before any byte is taken. -/
def Block.write (n : Nat) (data0 : Word) (b : Block) : Block :=
  if b.phase = .absorbing then b.takeBytes (operandBytes n data0) else b.raise .invalidState

/-- WRITE (R71). A count above 8 is no WRITE: its word is ILLEGAL and raises BAD_COMMAND (R53; log entry 4). -/
def execWrite (n : Nibble) (data0 : Word) (s : State) : Host.Outcome State Fault Refusal :=
  if n.toNat ≤ 8 then .next (s.setBlock (s.block.write n.toNat data0))
  else .next (s.setBlock (s.block.raise .badCommand))

/-- The lanes Finalize leaves when FINISH runs on `b` (R66, R73). -/
def Block.finalLanes (b : Block) : Lanes := finalizeLanes b.cr.toNat b.dr.toNat b.finalBlock b.lanes

/-- FINISH on the block (R74). -/
def Block.finish (b : Block) : Block :=
  if b.phase = .absorbing then
    { b.setLanes b.finalLanes with result := b.finalLanes.digest, phase := .finished }
  else b.raise .invalidState

/-- FINISH (R74). -/
def execFinish (s : State) : Host.Outcome State Fault Refusal := .next (s.setBlock s.block.finish)

end Sys2Proof.Machine
end

