-- ==== Sys2Proof/Machine/Flags.lean ====
section
/-! DEFINITION. The codes of PHASE and ERR and the STATUS word (10_state R21, R22, R27; 42_readout R81). The block has no
other flags. -/

namespace Sys2Proof.Machine

/-- The 2-bit code of PHASE (R21). -/
def Phase.code : Phase → BitVec 2
  | .unkeyed => 0
  | .absorbing => 1
  | .finished => 2
  | .faulted => 3

/-- The 2-bit code of ERR (R22). -/
def Err.code : Err → BitVec 2
  | .none => 0
  | .config => 1
  | .invalidState => 2
  | .badCommand => 3

/-- RESULT_VALID: 1 exactly when PHASE = FINISHED; derived, not stored (R27, R81). -/
def Block.resultValid (b : Block) : Bool := decide (b.phase = .finished)

/-- `STATUS = PHASE | (RESULT_VALID << 2) | (RAW_EN << 3) | (ERR << 4) | (CR << 8) | (DR << 12)` (R81). -/
def statusWord (cfg : Config) (b : Block) : Word :=
  b.phase.code.setWidth 64
    ||| ((BitVec.ofBool b.resultValid).setWidth 64 <<< 2)
    ||| ((BitVec.ofBool cfg.rawStateAccess).setWidth 64 <<< 3)
    ||| (b.err.code.setWidth 64 <<< 4)
    ||| (b.cr.setWidth 64 <<< 8)
    ||| (b.dr.setWidth 64 <<< 12)

end Sys2Proof.Machine
end

