-- ==== Sys2Proof/Machine/ReadPort.lean ====
section
/-! DEFINITION. The read port (42_readout.md): ReadReg and the instruction RD. -/

namespace Sys2Proof.Machine

/-- A raw-state register as the host sees it: its value, or 0 without RAW_STATE_ACCESS (R79, R84). -/
def gated (cfg : Config) (w : Word) : Word := if cfg.rawStateAccess then w else 0

/-- `ReadReg(a)` (R79): a pure function of the state and RAW_STATE_ACCESS; reserved addresses read 0 (R85). -/
def readReg (cfg : Config) (a : Nibble) (b : Block) : Word :=
  match a.toNat with
  | 0x0 => statusWord cfg b
  | 0x1 => b.result
  | 0x8 => gated cfg b.lanes.v0
  | 0x9 => gated cfg b.lanes.v1
  | 0xA => gated cfg b.lanes.v2
  | 0xB => gated cfg b.lanes.v3
  | 0xC => gated cfg b.buf
  | 0xD => gated cfg (b.plen.setWidth 64)
  | 0xE => gated cfg b.len
  | _ => 0

/-- RD a (R79): the host gets `ReadReg(a)` on rd_data; the block does not change (R42). -/
def execRd (a : Nibble) (s : State) : Host.Outcome State Fault Refusal :=
  .next (s.logRead (readReg s.cfg a s.block))

end Sys2Proof.Machine
end

