-- ==== Sys2Proof/Machine/Dispatch.lean ====
section
/-! DEFINITION. One arm per instruction, each one direct call of its meaning. -/

namespace Sys2Proof.Machine

def exec (i : Instr) (s : State) : Host.Outcome State Fault Refusal :=
  match i with
  | .nop => Sys2Proof.Machine.execNop s
  | .init c d key0 key1 => Sys2Proof.Machine.execInit c d key0 key1 s
  | .write n data0 => Sys2Proof.Machine.execWrite n data0 s
  | .finish => Sys2Proof.Machine.execFinish s
  | .rd a => Sys2Proof.Machine.execRd a s

end Sys2Proof.Machine
end

