-- ==== Sys2Proof/Machine/Accept.lean ====
section
/-! DEFINITION. What one host operation does (41_commands R68; 70_reset R103, R111, R112). -/

namespace Sys2Proof.Machine

/-- `Accept` (R68), for either port: an instruction has its meaning, an ILLEGAL word raises BAD_COMMAND whatever makes it
illegal (R53). -/
def accept (p : PortAccess) (s : State) : Host.Outcome State Fault Refusal :=
  match decode p with
  | .instr i => exec i s
  | .illegal _ => .next (s.setBlock (s.block.raise .badCommand))

/-- One host operation (R111). -/
def runOp (op : HostOp) (s : State) : Host.Outcome State Fault Refusal :=
  match op with
  | .access p => accept p s
  | .reset => .next s.resetBlock

end Sys2Proof.Machine
end

