-- ==== Sys2Proof/Machine/Step.lean ====
section
/-! DEFINITION. One step: the next host operation of the run (70_reset R112). -/

namespace Sys2Proof.Machine

/-- One step takes the next host operation from the queue and runs it, one accepted command a step (R5, R68). With no
operation waiting the block holds its state and does nothing (R102; log entry 6). -/
def step (s : State) : Host.Outcome State Fault Refusal :=
  match s.ops with
  | [] => .next s
  | op :: rest => runOp op (s.setOps rest)

/-- `s` with the port access of a table word put first in the host's queue, so that the next step runs it (log entries 1
and 13). -/
def State.withFetchWord (s : State) (nbits w : Nat) : State :=
  s.setOps (.access (tableAccess nbits w) :: s.ops)

end Sys2Proof.Machine
end

