-- ==== Sys2Proof/Machine/Assembler.lean ====
section
/-! DEFINITION. The lines of a host program and their expansions (30_encoding R57, R58; 92 D27). They are the host's
notation: the block sees only the operations they expand to. -/

namespace Sys2Proof.Machine

/-- A register name of an RD line (R57, R80). -/
inductive RegName where
  | status | result | v0 | v1 | v2 | v3 | pbuf | plen | len
  | num (a : Nibble)
deriving DecidableEq, Repr

/-- The read address a register name stands for (R80). -/
def regAddr : RegName → Nibble
  | .status => 0x0
  | .result => 0x1
  | .v0 => 0x8
  | .v1 => 0x9
  | .v2 => 0xA
  | .v3 => 0xB
  | .pbuf => 0xC
  | .plen => 0xD
  | .len => 0xE
  | .num a => a

/-- One line of a host program: the operations of R57 and the pseudo-instructions of R58. -/
inductive AsmLine where
  | nop
  | init (c d : Nibble) (key0 key1 : Word)
  | write (n : Nibble) (data : Word)
  | finish
  | rd (reg : RegName)
  | reset
  /-- `.word cmd, d0, d1`: a raw transaction. -/
  | word (cmd : CmdWord) (d0 d1 : Word)
  /-- `INIT.DEFAULT key0, key1`. -/
  | initDefault (key0 key1 : Word)
  /-- `INITK c, d, K0, ..., K15`. -/
  | initK (c d : Nibble) (key : List Byte)
  /-- `WRITEB b0, ..., b(n-1)`. -/
  | writeB (bytes : List Byte)
  /-- `WRITES s`. -/
  | writeS (bytes : List Byte)
deriving DecidableEq, Repr

/-- The line is one the syntax has: n in 0..8, sixteen key bytes, at most 8 bytes in a WRITEB (R57, R58). -/
def asmLegal : AsmLine → Bool
  | .write n _ => decide (n.toNat ≤ 8)
  | .initK _ _ key => decide (key.length = 16)
  | .writeB bytes => decide (bytes.length ≤ 8)
  | .nop | .init .. | .finish | .rd _ | .reset | .word .. | .initDefault .. | .writeS _ => true

/-- The host operation that issues an instruction. -/
def issue (i : Instr) : HostOp := .access (encode i)

/-- The WRITE of a chunk of at most 8 bytes: `WRITE n, LE64(b0, ..., b(n-1), 0, ...)` (R58, WRITEB). -/
def writeChunk (bytes : List Byte) : Instr := .write (BitVec.ofNat 4 bytes.length) (le64 bytes)

/-- A byte sequence cut into consecutive pieces of 8 bytes, the last one what remains (R58, WRITES). -/
def chunksOf8 (s : List Byte) : List (List Byte) :=
  (List.range ((s.length + 7) / 8)).map fun i => (s.drop (8 * i)).take 8

/-- The host operations a line expands to (R57, R58). -/
def expand : AsmLine → List HostOp
  | .nop => [issue .nop]
  | .init c d key0 key1 => [issue (.init c d key0 key1)]
  | .write n data => [issue (.write n data)]
  | .finish => [issue .finish]
  | .rd reg => [issue (.rd (regAddr reg))]
  | .reset => [.reset]
  | .word cmd d0 d1 => [.access (.command { cmd := cmd, data0 := d0, data1 := d1 })]
  | .initDefault key0 key1 => [issue (.init 2 4 key0 key1)]
  | .initK c d key => [issue (.init c d (le64 (key.take 8)) (le64 ((key.drop 8).take 8)))]
  | .writeB bytes => [issue (writeChunk bytes)]
  | .writeS bytes => (chunksOf8 bytes).map fun chunk => issue (writeChunk chunk)

/-- The host operations of a program, line by line (R112). -/
def assemble (lines : List AsmLine) : List HostOp := lines.flatMap expand

/-- `INIT c, d, k0, k1`, one WRITE per chunk, then `FINISH`: the command sequence of R75. -/
def hashSequence (c d : Nibble) (key0 key1 : Word) (chunks : List (List Byte)) : List HostOp :=
  issue (.init c d key0 key1) :: (chunks.map fun chunk => issue (writeChunk chunk)) ++ [issue .finish]

end Sys2Proof.Machine
end

