-- ==== Sys2Proof/Machine/Clocked.lean ====
section
/-! DEFINITION. The clock-edge layer over the transaction-level machine: the ports of 10_state R28, the handshake of
70_reset R107, reset on an edge (R103) and reads while a command runs (42_readout R86). CMD_LATENCY is open (92 D22), so
`latency` is an argument: every statement about this layer holds for all latencies. `step` does not use it. Log entries 8
and 16. -/

namespace Sys2Proof.Machine

/-- The input ports at one rising clk edge (R28). -/
structure Pins where
  rst      : Bool
  cmdValid : Bool
  /-- cmd_word, cmd_data0, cmd_data1. -/
  tx       : Transaction
  rdAddr   : Nibble
deriving DecidableEq, Repr

/-- A command the block is executing (R29: the host sees only that cmd_ready is 0). -/
structure InFlight where
  tx   : Transaction
  /-- The further edges before the one at which its effect is complete. -/
  left : Nat
deriving DecidableEq, Repr

/-- The block between two edges: the state reads show, and the command in flight, if any. -/
structure Clocked where
  st   : State
  busy : Option InFlight
deriving DecidableEq, Repr

/-- cmd_ready: 0 while rst = 1 (R103) and while a command executes (R107). -/
def Clocked.cmdReady (p : Pins) (m : Clocked) : Bool := !p.rst && m.busy.isNone

/-- The block accepts a command on an edge exactly when cmd_valid = 1, cmd_ready = 1 and rst = 0 (R107). -/
def Clocked.accepts (p : Pins) (m : Clocked) : Bool := p.cmdValid && m.cmdReady p && !p.rst

/-- rd_data: ReadReg of the state before the command in flight (R86). -/
def Clocked.rdData (p : Pins) (m : Clocked) : Word := readReg m.st.cfg p.rdAddr m.st.block

/-- The state after the whole command (R41); `accept` always answers a next state. -/
def completed (t : Transaction) (s : State) : State :=
  match accept (.command t) s with
  | .next s' => s'
  | .fault _ => s
  | .refused _ => s

/-- One rising clk edge. A command of latency 0 completes within the accepting clock; one of latency k + 1 holds cmd_ready
at 0 for k + 1 clocks (R107). -/
def Clocked.edge (latency : Block → Transaction → Nat) (p : Pins) (m : Clocked) : Clocked :=
  if p.rst then { st := m.st.resetBlock, busy := none }
  else match m.busy with
    | some { tx := t, left := 0 } => { st := completed t m.st, busy := none }
    | some { tx := t, left := k + 1 } => { m with busy := some { tx := t, left := k } }
    | none =>
      if m.accepts p then
        match latency m.st.block p.tx with
        | 0 => { st := completed p.tx m.st, busy := none }
        | k + 1 => { m with busy := some { tx := p.tx, left := k } }
      else m

/-- The host operation an edge amounts to, if any: a reset, or the command it accepts (R28, R89: reset wins). -/
def Clocked.event (p : Pins) (m : Clocked) : Option HostOp :=
  if p.rst then some .reset
  else if m.accepts p then some (.access (.command p.tx)) else none

/-- A run of edges: the block after them and the host operations they amounted to, in order. -/
def Clocked.runEdges (latency : Block → Transaction → Nat) : List Pins → Clocked → Clocked × List HostOp
  | [], m => (m, [])
  | p :: ps, m =>
    let (m', ops) := Clocked.runEdges latency ps (m.edge latency p)
    (m', (m.event p).toList ++ ops)

/-- The transaction-level state of a clocked block: the one the command in flight is bringing about (R45). -/
def Clocked.committed (m : Clocked) : State :=
  match m.busy with
  | none => m.st
  | some f => completed f.tx m.st

end Sys2Proof.Machine
end

