-- ==== Sys2Proof/Machine/Cost.lean ====
section
/-! DEFINITION. The cost measure of the commands: SipRounds and byte steps (40 R67, 70_reset R110), as the rule's table
(`sipRoundCount`, `byteStepCount`) and as a meter: the commands run once more, each SipRound and each turn of the byte loop
counted where it happens. It is no clock count, and no step reads it (log entry 17). -/

namespace Sys2Proof.Machine

/-! ### The table of R110 -/

/-- The SipRounds an instruction runs on the block `b` (R67, R110); a raised error runs none. -/
def sipRoundCount (i : Instr) (b : Block) : Nat :=
  match i with
  | .nop => 0
  | .init _ _ _ _ => 0
  | .write n _ =>
    if b.phase = .absorbing ∧ n.toNat ≤ 8 ∧ 8 ≤ b.plen.toNat + n.toNat then b.cr.toNat else 0
  | .finish => if b.phase = .absorbing then b.cr.toNat + b.dr.toNat else 0
  | .rd _ => 0

/-- The byte steps an instruction runs on the block `b` (R110): n for a WRITE that raises nothing, else none. -/
def byteStepCount (i : Instr) (b : Block) : Nat :=
  match i with
  | .nop => 0
  | .init _ _ _ _ => 0
  | .write n _ => if b.phase = .absorbing ∧ n.toNat ≤ 8 then n.toNat else 0
  | .finish => 0
  | .rd _ => 0

/-! ### The metered commands -/

/-- A block, the SipRounds applied to its lanes so far, and the bytes its loop has taken so far. -/
structure Metered where
  block     : Block
  sipRounds : Nat
  byteSteps : Nat
deriving DecidableEq, Repr

/-- A block before anything is counted. -/
def Metered.start (b : Block) : Metered := { block := b, sipRounds := 0, byteSteps := 0 }

/-- A change of the block that applies no SipRound and takes no byte. -/
def Metered.free (f : Block → Block) (m : Metered) : Metered := { m with block := f m.block }

/-- One SipRound on the lanes, counted: the one place where the meter applies sipRound (R63). -/
def Metered.round (m : Metered) : Metered :=
  { m with block := m.block.setLanes (sipRound m.block.lanes), sipRounds := m.sipRounds + 1 }

/-- `repeat n: SipRound()` (R10). -/
def Metered.rounds : Nat → Metered → Metered
  | 0, m => m
  | n + 1, m => Metered.rounds n m.round

/-- AbsorbBlock (R65): its CR rounds one by one, between the two message XORs. -/
def Metered.absorb (w : Word) (m : Metered) : Metered :=
  let m := m.free fun b => b.setLanes (b.lanes.xorV3 w)
  let m := m.rounds m.block.cr.toNat
  m.free fun b => b.setLanes (b.lanes.xorV0 w)

/-- One turn of WRITE's byte loop (R71), counted. -/
def Metered.takeByte (x : Byte) (m : Metered) : Metered :=
  let len := add64 m.block.len 1
  let m' :=
    if m.block.plen.toNat + 1 = 8 then (m.absorb (m.block.filled x)).free (Block.setPending 0 0 len)
    else m.free (Block.setPending (m.block.filled x) (m.block.plen + 1) len)
  { m' with byteSteps := m'.byteSteps + 1 }

/-- WRITE's byte loop (R71). -/
def Metered.takeBytes : List Byte → Metered → Metered
  | [], m => m
  | x :: xs, m => Metered.takeBytes xs (m.takeByte x)

/-- Finalize and FINISH's latch (R66, R74): the final block's CR rounds, the 0xff XOR, DR rounds, RESULT and PHASE. -/
def Metered.finalize (m : Metered) : Metered :=
  let m := m.absorb m.block.finalBlock
  let m := m.free fun b => b.setLanes (b.lanes.xorV2 finalMark)
  let m := m.rounds m.block.dr.toNat
  m.free fun b => { b with result := b.lanes.digest, phase := .finished }

/-- An instruction, metered. -/
def Metered.exec (i : Instr) (m : Metered) : Metered :=
  match i with
  | .nop => m
  | .init c d key0 key1 => m.free (Block.construct c d key0 key1)
  | .write n data0 =>
    if n.toNat ≤ 8 then
      if m.block.phase = .absorbing then m.takeBytes (operandBytes n.toNat data0)
      else m.free (Block.raise .invalidState)
    else m.free (Block.raise .badCommand)
  | .finish => if m.block.phase = .absorbing then m.finalize else m.free (Block.raise .invalidState)
  | .rd _ => m

end Sys2Proof.Machine
end

