-- ==== Sys2Proof/Machine/Reference.lean ====
section
/-! DEFINITION. The reference function of R75, SipHash-c-d with 64-bit output, over a whole byte sequence. No step runs it:
it is what the streaming commands are compared with. -/

namespace Sys2Proof.Machine

/-- The block word of stream bytes 8i..8i+7 (R75, R32). -/
def blockAt (s : List Byte) (i : Nat) : Word := le64 ((s.drop (8 * i)).take 8)

/-- The lanes after AbsorbBlock of every whole block of `s`, in order (R75). -/
def absorbAll (c : Nat) (s : List Byte) (v : Lanes) : Lanes :=
  (List.range (s.length / 8)).foldl (fun v i => absorbLanes c (blockAt s i) v) v

/-- The bytes of `s` after its last whole block. -/
def tailBytes (s : List Byte) : List Byte := s.drop (8 * (s.length / 8))

/-- The final block of R75: the remaining bytes, zeros up to byte 6, the length modulo 256 in byte 7. -/
def lastBlock (s : List Byte) : Word :=
  le64 (tailBytes s ++ List.replicate (7 - (tailBytes s).length) 0 ++ [BitVec.ofNat 8 s.length])

/-- `SipHash(c, d, k0, k1, s)` (R75). -/
def sipHash (c d : Nat) (key0 key1 : Word) (s : List Byte) : Word :=
  (finalizeLanes c d (lastBlock s) (absorbAll c s (laneInit key0 key1))).digest

/-- A character sequence read big-endian, the first character most significant: how R62 reads the chunks of its string. -/
def bigEndian (cs : List Char) : Word := cs.foldl (fun w c => (w <<< 8) ||| BitVec.ofNat 64 c.toNat) 0

/-- R62's string, "somepseudorandomlygeneratedbytes". -/
def sourceString : List Char := "somepseudorandomlygeneratedbytes".toList

end Sys2Proof.Machine
end

