-- ==== Sys2Proof/Machine/Run.lean ====
section
/-! DEFINITION. Runs (70_reset R112): so many steps of the machine. A run that loads the host operations `ops` and takes
`ops.length` steps is the host program `ops`. -/

namespace Sys2Proof.Machine

/-- `k` steps of the machine, as Host/Core.lean runs them. -/
def run (k : Nat) (s : State) : Host.Outcome State Fault Refusal := Host.Core.run core k s

/-- The host program `ops` run from `s` (R112). -/
def runOps (ops : List HostOp) (s : State) : Host.Outcome State Fault Refusal := run ops.length (s.setOps ops)

end Sys2Proof.Machine
end

