-- ==== Sys2Proof/Machine/System.lean ====
section
/-! DEFINITION. Several instances of the block (60_exceptions R100): each has its own state, and none is named to another. -/

namespace Sys2Proof.Machine

/-- Any number of independent instances. -/
abbrev Instances := List State

/-- The instances after instance `k` has taken one step; where it does not answer, or there is no instance `k`, nothing
changes. -/
def stepInstance (k : Nat) (is : Instances) : Instances :=
  match is[k]? with
  | none => is
  | some s =>
    match step s with
    | .next s' => is.set k s'
    | .fault _ => is
    | .refused _ => is

end Sys2Proof.Machine
end

