-- ==== Sys2Proof/Safety.lean ====
section
/-! DEFINITION. What counts as a safe state and a trusted result: the invariants of 10_state R31 and the host's rule for
RESULT (70_reset R106 step 5, R108 c, R112). -/

namespace Sys2Proof.Machine

/-- Bytes of BUF at and above PLEN are zero (R17, R31 item 2). -/
abbrev Block.BufClean (b : Block) : Prop := b.buf >>> (8 * b.plen.toNat) = 0

/-- PHASE != FINISHED implies RESULT = 0 (R23, R31 item 3). -/
abbrev Block.ResultHidden (b : Block) : Prop := b.phase ≠ .finished → b.result = 0

/-- PHASE = ABSORBING implies 1 <= CR, DR <= 15 (R31 item 4). -/
abbrev Block.ScheduleLegal (b : Block) : Prop :=
  b.phase = .absorbing → (1 ≤ b.cr.toNat ∧ b.cr.toNat ≤ 15) ∧ (1 ≤ b.dr.toNat ∧ b.dr.toNat ≤ 15)

/-- In ABSORBING and FINISHED, LEN mod 8 = PLEN, also after LEN wraps (R31 item 6). -/
abbrev Block.LenTracksPlen (b : Block) : Prop :=
  (b.phase = .absorbing ∨ b.phase = .finished) → b.len.toNat % 8 = b.plen.toNat

/-- The invariants of R31 that one state can show. Item 1, PLEN <= 7, holds by PLEN's width. -/
abbrev Block.Inv (b : Block) : Prop :=
  b.BufClean ∧ b.ResultHidden ∧ b.ScheduleLegal ∧ b.LenTracksPlen

/-- A host may accept RESULT: RESULT_VALID = 1 and ERR = NONE (R106, R112). -/
abbrev Block.ResultTrusted (b : Block) : Prop := b.resultValid = true ∧ b.err = .none

/-- Two blocks that agree on PHASE, ERR, CR and DR: all that a read shows without RAW_STATE_ACCESS, but RESULT (R84). -/
abbrev Block.SameStatus (b c : Block) : Prop :=
  b.phase = c.phase ∧ b.err = c.err ∧ b.cr = c.cr ∧ b.dr = c.dr

/-- Two states that differ in the blocks' lanes, BUF, PLEN, LEN and RESULT alone. -/
abbrev State.SameSeenButResult (s t : State) : Prop :=
  s.cfg = t.cfg ∧ s.ops = t.ops ∧ s.reads = t.reads ∧ s.block.SameStatus t.block

/-- Two states that differ in the blocks' lanes, BUF, PLEN and LEN alone: what R84 hides. -/
abbrev State.SameSeen (s t : State) : Prop := s.SameSeenButResult t ∧ s.block.result = t.block.result

/-- `op` carries a successful INIT: an INIT word with C >= 1 and D >= 1 (R70). -/
abbrev IsGoodInit (op : HostOp) : Prop :=
  ∃ (t : Transaction) (c d : Nibble), op = .access (.command t) ∧
    decodeCommand t = .instr (.init c d t.data0 t.data1) ∧ c ≠ 0 ∧ d ≠ 0

end Sys2Proof.Machine
end

