-- ==== Sys2Proof/Certificates/Slice0/Obligations.lean ====
section
/-! DEFINITION. The statements for the provers, from the spec's numbered rules. Each docstring names the rules. -/

open Sys2Proof Sys2Proof.Machine

/-! ### Datapath (40_sipstate_datapath.md) -/

/-- R59: addition wraps modulo 2^64. -/
def Obligations.Add64WrapsModulo2To64 : Prop :=
  (∀ a b : Word, (add64 a b).toNat = (a.toNat + b.toNat) % 2 ^ 64) ∧
  (∀ a : Word, add64 a 0 = a) ∧
  add64 0xFFFFFFFFFFFFFFFF#64 1#64 = 0 ∧
  add64 0x8000000000000000#64 0x8000000000000000#64 = 0 ∧
  add64 0xFFFFFFFFFFFFFFFF#64 2#64 = 1

/-- R60: exclusive OR of each bit position. -/
def Obligations.Xor64ActsBitByBit : Prop :=
  (∀ (a b : Word) (i : Nat), (xor64 a b).getLsbD i = (a.getLsbD i != b.getLsbD i)) ∧
  (∀ a : Word, xor64 a a = 0 ∧ xor64 a 0 = a) ∧
  xor64 0xFF#64 0xF0F#64 = 0xFF0#64

/-- R61: the formula, where each bit goes, and the corner cases. -/
def Obligations.Rotl64MovesEachBit : Prop :=
  (∀ (a : Word) (r : Nat), 0 < r → r < 64 →
    (rotl64 a r).toNat = (a.toNat <<< r ||| a.toNat >>> (64 - r)) % 2 ^ 64 ∧
    (∀ i < 64, (rotl64 a r).getLsbD i = a.getLsbD ((i + 64 - r) % 64)) ∧
    rotl64 0 r = 0 ∧ rotl64 0xFFFFFFFFFFFFFFFF#64 r = 0xFFFFFFFFFFFFFFFF#64) ∧
  (∀ hi lo : BitVec 32, rotl64 (hi ++ lo) 32 = lo ++ hi) ∧
  rotl64 0x8000000000000001#64 13 = 0x3000#64

/-- R62, R64: LaneInit XORs the key words with the four chunks of the source's string, each read big-endian; no key is
invalid. -/
def Obligations.LaneInitMixesKeyAndString : Prop :=
  (∀ key0 key1 : Word, laneInit key0 key1 =
    { v0 := key0 ^^^ bigEndian (sourceString.take 8)
      v1 := key1 ^^^ bigEndian ((sourceString.drop 8).take 8)
      v2 := key0 ^^^ bigEndian ((sourceString.drop 16).take 8)
      v3 := key1 ^^^ bigEndian (sourceString.drop 24) }) ∧
  (initC0 = 0x736f6d6570736575#64 ∧ initC1 = 0x646f72616e646f6d#64 ∧
    initC2 = 0x6c7967656e657261#64 ∧ initC3 = 0x7465646279746573#64) ∧
  laneInit 0 0 = { v0 := initC0, v1 := initC1, v2 := initC2, v3 := initC3 } ∧
  laneInit 0x0706050403020100#64 0x0f0e0d0c0b0a0908#64 =
    { v0 := 0x7469686173716475#64, v1 := 0x6b617f6d656e6665#64
      v2 := 0x6b7f62616d677361#64, v3 := 0x7b6b696e727e6c7b#64 }

/-- R63: the 14 steps of the listing, also with steps 5..7 before 1..4; the zero fixed point; SipRound is a bijection; the
worked example. -/
def Obligations.SipRoundRunsTheListing : Prop :=
  (∀ v : Lanes, sipRound v =
    (let v0 := v.v0 + v.v1
     let v1 := v.v1.rotateLeft 13
     let v1 := v1 ^^^ v0
     let v0 := v0.rotateLeft 32
     let v2 := v.v2 + v.v3
     let v3 := v.v3.rotateLeft 16
     let v3 := v3 ^^^ v2
     let v0 := v0 + v3
     let v3 := v3.rotateLeft 21
     let v3 := v3 ^^^ v0
     let v2 := v2 + v1
     let v1 := v1.rotateLeft 17
     let v1 := v1 ^^^ v2
     let v2 := v2.rotateLeft 32
     { v0 := v0, v1 := v1, v2 := v2, v3 := v3 })) ∧
  (∀ v : Lanes, sipRound v =
    (let v2 := v.v2 + v.v3
     let v3 := v.v3.rotateLeft 16 ^^^ v2
     let v0 := v.v0 + v.v1
     let v1 := v.v1.rotateLeft 13 ^^^ v0
     let v0 := v0.rotateLeft 32 + v3
     let v3 := v3.rotateLeft 21 ^^^ v0
     let v2 := v2 + v1
     { v0 := v0, v1 := v1.rotateLeft 17 ^^^ v2, v2 := v2.rotateLeft 32, v3 := v3 })) ∧
  sipRound { v0 := 0, v1 := 0, v2 := 0, v3 := 0 } = { v0 := 0, v1 := 0, v2 := 0, v3 := 0 } ∧
  Function.Bijective sipRound ∧
  sipRound { v0 := 0x7469686173716475#64, v1 := 0x6b617f6d656e6665#64
             v2 := 0x6b7f62616d677361#64, v3 := 0x7b6b696e727e6c7b#64 } =
    { v0 := 0x6864848c93698c85#64, v1 := 0x41d43f143c94a7dc#64
      v2 := 0xf3f94792d7121732#64, v3 := 0x5e52f75805987c12#64 }

/-- 40 section 4, AbsorbBlock: the two message XORs around CR rounds; only the lanes change. -/
def Obligations.AbsorbBlockXorsAroundTheRounds : Prop :=
  (∀ (b : Block) (m : Word), b.absorbBlock m =
    { b with lanes :=
        (let r := sipRound^[b.cr.toNat] { b.lanes with v3 := b.lanes.v3 ^^^ m }
         { r with v0 := r.v0 ^^^ m }) }) ∧
  absorbLanes 2 0x0706050403020100#64 (laneInit 0x0706050403020100#64 0x0f0e0d0c0b0a0908#64) =
    { v0 := 0x4a017198de0a59e0#64, v1 := 0x0d52f6f62a4f59a4#64
      v2 := 0x634cb3577b01fd3d#64, v3 := 0xa5224d6f55c7d9c8#64 }

/-- R66: the final block, then 0xff into V[2], then DR rounds, then the XOR of the lanes; FINISH keeps the lanes so. -/
def Obligations.FinalizeAbsorbsThenMarksThenRounds : Prop :=
  (∀ (cr dr : Nat) (m : Word) (v : Lanes), finalizeLanes cr dr m v =
    (let a := sipRound^[cr] { v with v3 := v.v3 ^^^ m }
     sipRound^[dr] { a with v0 := a.v0 ^^^ m, v2 := a.v2 ^^^ 0x00000000000000FF#64 })) ∧
  (∀ v : Lanes, v.digest = v.v0 ^^^ v.v1 ^^^ v.v2 ^^^ v.v3) ∧
  (∀ s : State, s.block.phase = .absorbing →
    ∃ t, exec .finish s = .next t ∧ t.block.phase = .finished ∧
      t.block.lanes = finalizeLanes s.block.cr.toNat s.block.dr.toNat s.block.finalBlock s.block.lanes ∧
      t.block.result = t.block.lanes.digest) ∧
  (let v : Lanes := { v0 := 0x4a017198de0a59e0#64, v1 := 0x0d52f6f62a4f59a4#64
                      v2 := 0x634cb3577b01fd3d#64, v3 := 0xa5224d6f55c7d9c8#64 }
   let b := 0x0f0e0d0c0b0a0908#64
   absorbLanes 2 b v = { v0 := 0x3c85b3ab6f55be51#64, v1 := 0x414fc3fb98efe374#64
                         v2 := 0xccf13ea527b9f4bd#64, v3 := 0x5293f5da84008f82#64 } ∧
   (absorbLanes 2 b v).v2 ^^^ 0xFF#64 = 0xccf13ea527b9f442#64 ∧
   finalizeLanes 2 4 b v = { v0 := 0xf6bcd53893fecff1#64, v1 := 0x54b9964c7ea0d937#64
                             v2 := 0x1b38329c099bb55a#64, v3 := 0x1814bb89ad7be679#64 } ∧
   (finalizeLanes 2 4 b v).digest = 0xa129ca6149be45e5#64)

/-! ### Encoding (30_encoding.md) -/

/-- R52: which words decode to what, as pseudocode and as match/mask pairs, and how many there are. -/
def Obligations.DecoderTakesExactly267Words : Prop :=
  (∀ t : Transaction, decodeCommand t = .instr .nop ↔ t.cmd &&& 0xFFFF#16 = 0x0000#16) ∧
  (∀ t : Transaction, decodeCommand t = .instr .finish ↔ t.cmd &&& 0xFFFF#16 = 0x0003#16) ∧
  (∀ (t : Transaction) (c d : Nibble) (k0 k1 : Word), decodeCommand t = .instr (.init c d k0 k1) ↔
    t.cmd &&& 0x00FF#16 = 0x0001#16 ∧ c = cField t.cmd ∧ d = dField t.cmd ∧ k0 = t.data0 ∧ k1 = t.data1) ∧
  (∀ (t : Transaction) (n : Nibble) (x : Word), decodeCommand t = .instr (.write n x) ↔
    t.cmd &&& 0xFF0F#16 = 0x0002#16 ∧ n = nField t.cmd ∧ n.toNat ≤ 8 ∧ x = t.data0) ∧
  (∀ (t : Transaction) (a : Nibble), decodeCommand t ≠ .instr (.rd a)) ∧
  (∃ inits writes illegals : List CmdWord, inits.Nodup ∧ writes.Nodup ∧ illegals.Nodup ∧
    inits.length = 256 ∧ writes.length = 9 ∧ illegals.length = 65269 ∧
    1 + inits.length + writes.length + 1 = 267 ∧
    ∀ t : Transaction,
      (t.cmd ∈ inits ↔ ∃ c d k0 k1, decodeCommand t = .instr (.init c d k0 k1)) ∧
      (t.cmd ∈ writes ↔ ∃ n x, decodeCommand t = .instr (.write n x)) ∧
      (t.cmd ∈ illegals ↔ ∃ why, decodeCommand t = .illegal why))

/-- A few words written out from the encoding tables decode to the instruction they stand for. -/
def Obligations.WrittenWordsDecode : Prop :=
  decodeTableWord 16 0b0000000000000000 = some .nop ∧
  decodeTableWord 16 0b0100001000000001 = some (.init 2 4 0 0) ∧
  decodeTableWord 16 0b0000000001110010 = some (.write 7 0) ∧
  decodeTableWord 16 0b0000000000000011 = some .finish ∧
  decodeTableWord 16 0b0000000010010010 = none ∧
  decodeTableWord 8 0b1101 = some (.rd 0xD) ∧
  (∀ x y : Word, decode (.command { cmd := 0x3101#16, data0 := x, data1 := y }) = .instr (.init 1 3 x y))

/-- Decoding the encoding of a well-formed instruction gives it back, with every field and operand. -/
def Obligations.DecodeOfEncodeIsTheInstruction : Prop :=
  ∀ i : Instr, i.WellFormed → decode (encode i) = .instr i

/-- Each legal word has one meaning: what decodes to an instruction is well-formed and encodes to the same word. -/
def Obligations.EncodeOfDecodeIsTheWord : Prop :=
  (∀ (t : Transaction) (i : Instr), decodeCommand t = .instr i →
    i.WellFormed ∧ ∃ u : Transaction, encode i = .command u ∧ u.cmd = t.cmd) ∧
  (∀ (a : Nibble) (i : Instr), decode (.read a) = .instr i → encode i = .read a)

/-- R53: the illegal words are the listed ones, and each raises BAD_COMMAND and does nothing else. -/
def Obligations.IllegalWordsRaiseBadCommand : Prop :=
  (∀ t : Transaction, (∃ why, decodeCommand t = .illegal why) ↔
    (4 ≤ (opField t.cmd).toNat ∨
     ((opField t.cmd = 0 ∨ opField t.cmd = 3) ∧
        ¬(nField t.cmd = 0 ∧ cField t.cmd = 0 ∧ dField t.cmd = 0)) ∨
     (opField t.cmd = 2 ∧ ¬(cField t.cmd = 0 ∧ dField t.cmd = 0)) ∨
     (opField t.cmd = 1 ∧ nField t.cmd ≠ 0) ∨
     (opField t.cmd = 2 ∧ 9 ≤ (nField t.cmd).toNat))) ∧
  (∀ (t : Transaction) (why : IllegalWord) (s : State), decodeCommand t = .illegal why →
    accept (.command t) s = .next { s with block := { s.block with
      err := .badCommand
      phase := if s.block.phase = .absorbing then .faulted else s.block.phase } })

/-- R50: the fields are unsigned and unscaled; INIT and WRITE use the operand bits named; two transactions that agree on
CMD and on the operand bits the command uses have the same effect. -/
def Obligations.IgnoredOperandBitsNeverMatter : Prop :=
  (∀ w : CmdWord, (nField w).toNat = w.toNat / 16 % 16 ∧ (cField w).toNat = w.toNat / 256 % 16 ∧
    (dField w).toNat = w.toNat / 4096) ∧
  (∀ (t : Transaction) (c d : Nibble) (k0 k1 : Word), decodeCommand t = .instr (.init c d k0 k1) →
    k0 = t.data0 ∧ k1 = t.data1) ∧
  (∀ (n k : Nat) (x : Word), k < n → (operandBytes n x)[k]? = some (x.extractLsb' (8 * k) 8)) ∧
  (∀ (t u : Transaction) (s : State), t.cmd = u.cmd →
    (∀ c d k0 k1, decodeCommand t = .instr (.init c d k0 k1) → t.data0 = u.data0 ∧ t.data1 = u.data1) →
    (∀ n x, decodeCommand t = .instr (.write n x) →
      ∀ k < n.toNat, t.data0.extractLsb' (8 * k) 8 = u.data0.extractLsb' (8 * k) 8) →
    accept (.command t) s = accept (.command u) s)

/-! ### Commands (41_commands.md) -/

/-- R69: NOP is the word 0x0000 alone and leaves every state as it is. -/
def Obligations.NopLeavesEveryState : Prop :=
  (∀ s : State, exec .nop s = .next s) ∧
  (∀ (x y : Word) (s : State), accept (.command { cmd := 0x0000#16, data0 := x, data1 := y }) s = .next s) ∧
  (∀ t : Transaction, decodeCommand t = .instr .nop → t.cmd = 0x0000#16) ∧
  (∀ (x y : Word) (s : State), accept (.command { cmd := 0x0010#16, data0 := x, data1 := y }) s =
    .next (s.setBlock (s.block.raise .badCommand)))

/-- R70: the word, the fresh instance, the CONFIG path, both in every phase, and the example. -/
def Obligations.InitStartsAFreshInstance : Prop :=
  (∀ (c d : Nibble) (k0 k1 : Word), ∃ t : Transaction, encode (.init c d k0 k1) = .command t ∧
    t.cmd.toNat = d.toNat * 4096 + c.toNat * 256 + 1 ∧ t.data0 = k0 ∧ t.data1 = k1) ∧
  (∀ (c d : Nibble) (k0 k1 : Word) (s : State), c ≠ 0 → d ≠ 0 →
    exec (.init c d k0 k1) s = .next { s with block :=
      { lanes := laneInit k0 k1, buf := 0, plen := 0, len := 0, cr := c, dr := d
        phase := .absorbing, err := .none, result := 0 } }) ∧
  (∀ (c d : Nibble) (k0 k1 : Word) (s : State), c = 0 ∨ d = 0 →
    exec (.init c d k0 k1) s = .next { s with block :=
      { s.block with result := 0, phase := .unkeyed, err := .config } }) ∧
  (∀ (t : Transaction) (c d : Nibble) (k0 k1 : Word), decodeCommand t = .instr (.init c d k0 k1) →
    nField t.cmd = 0) ∧
  accept (.command ⟨0x4201#16, 0x0706050403020100#64, 0x0f0e0d0c0b0a0908#64⟩) State.reset =
    .next { State.reset with block :=
      { lanes := { v0 := 0x7469686173716475#64, v1 := 0x6b617f6d656e6665#64
                   v2 := 0x6b7f62616d677361#64, v3 := 0x7b6b696e727e6c7b#64 }
        buf := 0, plen := 0, len := 0, cr := 2, dr := 4
        phase := .absorbing, err := .none, result := 0 } }

/-- 41 section 4: WRITE takes its bytes in stream order, one turn of the loop each; outside ABSORBING it only sets ERR; a
count above 8 is an ILLEGAL word. -/
def Obligations.WriteTakesBytesInOrder : Prop :=
  (∀ (n : Nibble) (x : Word) (s : State), n.toNat ≤ 8 → s.block.phase = .absorbing →
    exec (.write n x) s = .next (s.setBlock
      ((List.range n.toNat).foldl (fun (b : Block) (k : Nat) =>
        let buf := b.buf ||| ((x.extractLsb' (8 * k) 8).setWidth 64 <<< (8 * b.plen.toNat))
        if b.plen.toNat + 1 = 8 then
          { b.absorbBlock buf with buf := 0, plen := 0, len := b.len + 1 }
        else { b with buf := buf, plen := BitVec.ofNat 3 (b.plen.toNat + 1), len := b.len + 1 })
        s.block))) ∧
  (∀ (n : Nibble) (x : Word) (s : State), n.toNat ≤ 8 → s.block.phase ≠ .absorbing →
    exec (.write n x) s = .next { s with block := { s.block with err := .invalidState } }) ∧
  (∀ (n : Nibble) (x y : Word) (s : State), 8 < n.toNat →
    accept (.command { cmd := commandWord 0 0 n 2, data0 := x, data1 := y }) s =
      .next (s.setBlock (s.block.raise .badCommand)))

/-- R72: the closed form of the byte packer, and which byte lane takes which byte. -/
def Obligations.WriteClosedForm : Prop :=
  (∀ (n : Nibble) (x : Word) (s : State), n.toNat ≤ 8 → s.block.phase = .absorbing → s.block.BufClean →
    let p := s.block.plen.toNat
    let d := x &&& BitVec.ofNat 64 (2 ^ (8 * n.toNat) - 1)
    (p + n.toNat < 8 → exec (.write n x) s = .next { s with block := { s.block with
      buf := s.block.buf ||| (d <<< (8 * p))
      plen := BitVec.ofNat 3 (p + n.toNat)
      len := s.block.len + BitVec.ofNat 64 n.toNat } }) ∧
    (8 ≤ p + n.toNat → exec (.write n x) s = .next { s with block :=
      { s.block.absorbBlock (s.block.buf ||| (d <<< (8 * p))) with
        buf := d >>> (8 * (8 - p))
        plen := BitVec.ofNat 3 (p + n.toNat - 8)
        len := s.block.len + BitVec.ofNat 64 n.toNat } })) ∧
  (∀ (n : Nibble) (x : Word) (b : Block), n.toNat ≤ 8 → b.BufClean → 8 ≤ b.plen.toNat + n.toNat →
    let p := b.plen.toNat
    let d := x &&& BitVec.ofNat 64 (2 ^ (8 * n.toNat) - 1)
    (∀ i < 8, byteOf (b.buf ||| (d <<< (8 * p))) i = if i < p then byteOf b.buf i else byteOf x (i - p)) ∧
    (∀ j < p + n.toNat - 8, byteOf (d >>> (8 * (8 - p))) j = byteOf x (8 - p + j)))

/-- 41 section 4, WRITE's corner cases, in an ABSORBING state whose buffer is clean. -/
def Obligations.WriteBoundaryCases : Prop :=
  ∀ (x : Word) (s : State), s.block.phase = .absorbing → s.block.BufClean →
    exec (.write 0 x) s = .next s ∧
    (s.block.plen = 0 → exec (.write 8 x) s =
      .next { s with block := { s.block.absorbBlock x with len := s.block.len + 8 } }) ∧
    (s.block.plen = 7 → exec (.write 1 x) s =
      .next { s with block := { s.block.absorbBlock (s.block.buf ||| (x <<< 56)) with
        buf := 0, plen := 0, len := s.block.len + 1 } }) ∧
    (s.block.plen = 7 → exec (.write 8 x) s =
      .next { s with block := { s.block.absorbBlock (s.block.buf ||| (x <<< 56)) with
        buf := x >>> 8, len := s.block.len + 8 } }) ∧
    (s.block.len = 0xFFFFFFFFFFFFFFFF#64 → ∃ t, exec (.write 1 x) s = .next t ∧ t.block.len = 0)

/-- R73: the final block's formula, its bytes, and the corner cases. -/
def Obligations.FinalBlockLayout : Prop :=
  (∀ b : Block, b.finalBlock = b.buf ||| ((b.len.extractLsb' 0 8).setWidth 64 <<< 56)) ∧
  (∀ b : Block, b.BufClean →
    (∀ i < b.plen.toNat, byteOf b.finalBlock i = byteOf b.buf i) ∧
    (∀ i, b.plen.toNat ≤ i → i < 7 → byteOf b.finalBlock i = 0) ∧
    (byteOf b.finalBlock 7).toNat = b.len.toNat % 256 ∧
    (b.plen = 0 → b.len = 0 → b.finalBlock = 0) ∧
    (b.plen = 0 → b.len = 8 → b.finalBlock = 0x0800000000000000#64) ∧
    (b.plen = 7 → b.len = 255 → b.finalBlock = b.buf ||| 0xFF00000000000000#64) ∧
    (b.plen = 0 → b.len = 256 → b.finalBlock = 0))

/-- R74: FINISH latches the hash in ABSORBING, only sets ERR elsewhere; the word; the example. -/
def Obligations.FinishLatchesTheHash : Prop :=
  (∀ (x y : Word) (s : State), accept (.command { cmd := 0x0003#16, data0 := x, data1 := y }) s = exec .finish s) ∧
  (∀ s : State, s.block.phase = .absorbing →
    let v := finalizeLanes s.block.cr.toNat s.block.dr.toNat
      (s.block.buf ||| ((s.block.len.extractLsb' 0 8).setWidth 64 <<< 56)) s.block.lanes
    exec .finish s = .next { s with block := { s.block with
      lanes := v, result := v.v0 ^^^ v.v1 ^^^ v.v2 ^^^ v.v3, phase := .finished } } ∧
    ({ s.block with lanes := v, result := v.v0 ^^^ v.v1 ^^^ v.v2 ^^^ v.v3
                    phase := .finished } : Block).resultValid = true) ∧
  (∀ s : State, s.block.phase ≠ .absorbing →
    exec .finish s = .next { s with block := { s.block with err := .invalidState } }) ∧
  (∃ t u, exec (.init 2 4 0x0706050403020100#64 0x0f0e0d0c0b0a0908#64) State.reset = .next t ∧
    exec .finish t = .next u ∧ u.block.result = 0x726fdb47dd0e0e31#64 ∧ u.block.phase = .finished)

/-- 20 section 5 (write order; concatenation): two WRITEs are one WRITE of the bytes together. -/
def Obligations.TwoWritesAreOneOfTheConcatenation : Prop :=
  ∀ (n m : Nibble) (x : Word) (s : State), s.block.phase = .absorbing → n.toNat + m.toNat ≤ 8 →
    ∃ t, exec (.write n x) s = .next t ∧
      exec (.write m (x >>> (8 * n.toNat))) t = exec (.write (n + m) x) s

/-- R75: the streaming commands compute SipHash(c, d, k0, k1, s) for every split of s into chunks of at most 8 bytes, from
any state, n = 0 and empty chunks included; with (2, 4) it is the published SipHash-2-4, at two of its vectors. -/
def Obligations.StreamingEquivalence : Prop :=
  (∀ (c d : Nibble) (k0 k1 : Word) (chunks : List (List Byte)) (s : State),
    c ≠ 0 → d ≠ 0 → (∀ chunk ∈ chunks, chunk.length ≤ 8) →
    ∃ t, runOps (hashSequence c d k0 k1 chunks) s = .next t ∧
      t.block.result = sipHash c.toNat d.toNat k0 k1 chunks.flatten ∧
      t.block.phase = .finished ∧ t.block.err = .none) ∧
  sipHash 2 4 0x0706050403020100#64 0x0f0e0d0c0b0a0908#64 [] = 0x726fdb47dd0e0e31#64 ∧
  sipHash 2 4 0x0706050403020100#64 0x0f0e0d0c0b0a0908#64 ((List.range 15).map (BitVec.ofNat 8)) =
    0xa129ca6149be45e5#64

/-- 10 section 6, item 6: between INIT and FINISH the block is a function of the stream: the lanes have absorbed its whole
blocks, BUF holds its last PLEN bytes in order, LEN its length modulo 2^64. -/
def Obligations.PendingBytesAreTheStreamTail : Prop :=
  ∀ (c d : Nibble) (k0 k1 : Word) (chunks : List (List Byte)) (s : State),
    c ≠ 0 → d ≠ 0 → (∀ chunk ∈ chunks, chunk.length ≤ 8) →
    ∃ t, runOps (issue (.init c d k0 k1) :: chunks.map (fun chunk => issue (writeChunk chunk))) s = .next t ∧
      t.block.phase = .absorbing ∧ t.block.err = .none ∧
      t.block.lanes = absorbAll c.toNat chunks.flatten (laneInit k0 k1) ∧
      t.block.buf = le64 (tailBytes chunks.flatten) ∧
      t.block.plen.toNat = chunks.flatten.length % 8 ∧
      t.block.len = BitVec.ofNat 64 chunks.flatten.length ∧
      t.block.len.toNat % 8 = t.block.plen.toNat

/-- R58: the pseudo-instructions' expansions; WRITES cuts a sequence of any length into pieces of at most 8 bytes. -/
def Obligations.PseudoInstructionsExpand : Prop :=
  (∀ k0 k1 : Word, expand (.initDefault k0 k1) = expand (.init 2 4 k0 k1)) ∧
  (∀ (c d : Nibble) (lo hi : List Byte), lo.length = 8 → hi.length = 8 →
    expand (.initK c d (lo ++ hi)) = expand (.init c d (le64 lo) (le64 hi))) ∧
  (∀ bytes : List Byte, bytes.length ≤ 8 → ∃ n : Nibble, n.toNat = bytes.length ∧
    expand (.writeB bytes) = expand (.write n (le64 bytes))) ∧
  expand (.writeS []) = [] ∧
  (∀ head rest : List Byte, head.length = 8 →
    expand (.writeS (head ++ rest)) = expand (.write 8 (le64 head)) ++ expand (.writeS rest)) ∧
  (∀ rest : List Byte, rest ≠ [] → rest.length < 8 → expand (.writeS rest) = expand (.writeB rest)) ∧
  (∀ s : List Byte, (chunksOf8 s).flatten = s ∧ ∀ chunk ∈ chunksOf8 s, chunk.length ≤ 8)

/-! ### Read port (42_readout.md) -/

/-- R79, R85: what a read of each address returns, reserved addresses 0 in both builds, the builds told apart by RAW_EN;
it is appended to what the host has read, and nothing else changes. -/
def Obligations.RdReturnsTheRegister : Prop :=
  (∀ (a : Nibble) (s : State),
    exec (.rd a) s = .next { s with reads := s.reads ++ [readReg s.cfg a s.block] }) ∧
  (∀ (cfg : Config) (b : Block),
    readReg cfg 0x0 b = statusWord cfg b ∧
    readReg cfg 0x1 b = b.result ∧
    (cfg.rawStateAccess = true →
      readReg cfg 0x8 b = b.lanes.v0 ∧ readReg cfg 0x9 b = b.lanes.v1 ∧
      readReg cfg 0xA b = b.lanes.v2 ∧ readReg cfg 0xB b = b.lanes.v3 ∧
      readReg cfg 0xC b = b.buf ∧ (readReg cfg 0xD b).toNat = b.plen.toNat ∧
      readReg cfg 0xE b = b.len) ∧
    (readReg cfg 0x0 b).getLsbD 3 = cfg.rawStateAccess ∧
    (cfg.rawStateAccess = false → ∀ a : Nibble, 0x8 ≤ a.toNat → a.toNat ≤ 0xE → readReg cfg a b = 0) ∧
    (∀ a : Nibble, (2 ≤ a.toNat ∧ a.toNat ≤ 7) ∨ a.toNat = 0xF → readReg cfg a b = 0)) ∧
  readReg { rawStateAccess := false } 0x0 Block.reset = 0x4200#64

/-- 42 section 2, STATUS: each field read back from the word as the code the field's table gives (R21, R22, R81), the zero
bits above, and the word as a number. -/
def Obligations.StatusFieldsReadBack : Prop :=
  (∀ (cfg : Config) (b : Block),
    let w := statusWord cfg b
    w.extractLsb' 0 2 = (match b.phase with
      | .unkeyed => 0
      | .absorbing => 1
      | .finished => 2
      | .faulted => 3) ∧
    (w.getLsbD 2 = true ↔ b.phase = .finished) ∧
    w.getLsbD 3 = cfg.rawStateAccess ∧
    w.extractLsb' 4 4 = (match b.err with
      | .none => 0
      | .config => 1
      | .invalidState => 2
      | .badCommand => 3) ∧
    w.extractLsb' 8 4 = b.cr ∧
    w.extractLsb' 12 4 = b.dr ∧
    w >>> 16 = 0 ∧
    w.toNat = b.phase.code.toNat + (if b.phase = .finished then 4 else 0) +
      (if cfg.rawStateAccess then 8 else 0) + 16 * b.err.code.toNat + 256 * b.cr.toNat + 4096 * b.dr.toNat) ∧
  (Phase.unkeyed.code = 0 ∧ Phase.absorbing.code = 1 ∧ Phase.finished.code = 2 ∧ Phase.faulted.code = 3) ∧
  (Err.none.code = 0 ∧ Err.config.code = 1 ∧ Err.invalidState.code = 2 ∧ Err.badCommand.code = 3)

/-- R42: a read changes nothing in the block, and any two reads of an address, with other reads between, agree. -/
def Obligations.ReadsHaveNoSideEffects : Prop :=
  ∀ (a b : Nibble) (s : State), ∃ t u v,
    exec (.rd a) s = .next t ∧ exec (.rd b) t = .next u ∧ exec (.rd a) u = .next v ∧
    t.block = s.block ∧ u.block = s.block ∧ v.block = s.block ∧
    t.cfg = s.cfg ∧ u.cfg = s.cfg ∧ v.cfg = s.cfg ∧
    ∃ x y, t.reads = s.reads ++ [x] ∧ u.reads = s.reads ++ [x, y] ∧ v.reads = s.reads ++ [x, y, x]

/-- R84: without RAW_STATE_ACCESS addresses 0x8..0xE read 0, and two blocks that agree on PHASE, ERR, CR, DR and RESULT
cannot be told apart by any read, nor by any step: two states that differ only in lanes, BUF, PLEN and LEN step to states
that agree again, log of reads included, but for RESULT after a FINISH in ABSORBING. No step changes the parameter,
STATUS.RAW_EN reports it, and the default is false. -/
def Obligations.RawGateHidesLanesBufferAndCounter : Prop :=
  (∀ (cfg : Config) (b c : Block), cfg.rawStateAccess = false →
    (∀ a : Nibble, 0x8 ≤ a.toNat → a.toNat ≤ 0xE → readReg cfg a b = 0) ∧
    (b.phase = c.phase → b.err = c.err → b.cr = c.cr → b.dr = c.dr → b.result = c.result →
      ∀ a : Nibble, readReg cfg a b = readReg cfg a c)) ∧
  (∀ s t : State, s.cfg.rawStateAccess = false → s.SameSeen t →
    ∃ s' t', step s = .next s' ∧ step t = .next t' ∧ s'.SameSeenButResult t' ∧
      (s'.block.result = t'.block.result ∨
        (s.block.phase = .absorbing ∧ ∃ tx rest, s.ops = .access (.command tx) :: rest ∧
          decodeCommand tx = .instr .finish))) ∧
  (∀ s t : State, step s = .next t → t.cfg = s.cfg) ∧
  (∀ (cfg : Config) (b : Block), (statusWord cfg b).getLsbD 3 = cfg.rawStateAccess) ∧
  State.reset.cfg.rawStateAccess = false

/-- R82: RESULT reads the hash of the finished instance in FINISHED and 0 in every other phase of a state with the
invariants; it stays readable, through reads and every other operation, until the next INIT or reset. -/
def Obligations.ResultStaysReadable : Prop :=
  (∀ s : State, s.block.phase = .absorbing → ∃ t, exec .finish s = .next t ∧ t.block.resultValid = true ∧
    ∀ cfg : Config, readReg cfg 0x1 t.block =
      (finalizeLanes s.block.cr.toNat s.block.dr.toNat s.block.finalBlock s.block.lanes).digest) ∧
  (∀ (cfg : Config) (b : Block), b.Inv → b.resultValid = false → readReg cfg 0x1 b = 0) ∧
  (∀ s t : State, step s = .next t → s.block.phase = .finished →
    (t.block.phase = .finished ∧ t.block.result = s.block.result) ∨
    (∃ op rest, s.ops = op :: rest ∧ (op = .reset ∨ ∃ tx c d k0 k1, op = .access (.command tx) ∧
      decodeCommand tx = .instr (.init c d k0 k1))))

/-- 93 I1: commands never read the parameter: the block they leave is the same for both builds. -/
def Obligations.NoCommandReadsTheParameter : Prop :=
  ∀ (t : Transaction) (s : State) (cfg : Config), ∃ b,
    accept (.command t) s = .next { s with block := b } ∧
    accept (.command t) { s with cfg := cfg } = .next { s with cfg := cfg, block := b }

/-! ### Errors (60_exceptions.md) -/

/-- R88: what `raise E` writes, per error, and that INIT's cleared RESULT is all that stands of a command that raised. -/
def Obligations.RaiseWritesErrAndPhaseOnly : Prop :=
  (∀ b : Block, b.raise .config = { b with err := .config, phase := .unkeyed }) ∧
  (∀ b : Block, b.raise .invalidState = { b with err := .invalidState }) ∧
  (∀ b : Block, b.raise .badCommand =
    { b with err := .badCommand, phase := if b.phase = .absorbing then .faulted else b.phase }) ∧
  (Err.none.code = 0 ∧ Err.config.code = 1 ∧ Err.invalidState.code = 2 ∧ Err.badCommand.code = 3) ∧
  (∀ (i : Instr) (s : State), (∃ n x, i = .write n x ∧ n.toNat ≤ 8) ∨ i = .finish → s.block.phase ≠ .absorbing →
    exec i s = .next (s.setBlock (s.block.raise .invalidState))) ∧
  (∀ (c d : Nibble) (k0 k1 : Word) (s : State), c = 0 ∨ d = 0 →
    exec (.init c d k0 k1) s = .next (s.setBlock (({ s.block with result := 0 } : Block).raise .config))) ∧
  (∀ (t : Transaction) (why : IllegalWord) (s : State), decodeCommand t = .illegal why →
    accept (.command t) s = .next (s.setBlock (s.block.raise .badCommand))) ∧
  (∀ s : State, s.block.phase = .faulted →
    exec .finish s = .next { s with block := { s.block with err := .invalidState } })

/-- R89: decode decides first, then the phase check of WRITE and FINISH, then the schedule check of INIT; on an edge with
rst = 1 no command is accepted. -/
def Obligations.ErrorPriority : Prop :=
  (∀ (t : Transaction) (s : State), ∃ u, accept (.command t) s = .next u ∧
    (∀ why, decodeCommand t = .illegal why → u.block.err = .badCommand) ∧
    (∀ n x, decodeCommand t = .instr (.write n x) →
      u.block.err = if s.block.phase = .absorbing then s.block.err else .invalidState) ∧
    (decodeCommand t = .instr .finish →
      u.block.err = if s.block.phase = .absorbing then s.block.err else .invalidState) ∧
    (∀ c d k0 k1, decodeCommand t = .instr (.init c d k0 k1) →
      u.block.err = if c = 0 ∨ d = 0 then .config else .none) ∧
    (decodeCommand t = .instr .nop → u.block.err = s.block.err)) ∧
  (∀ (latency : Block → Transaction → Nat) (p : Pins) (m : Clocked), p.rst = true →
    m.accepts p = false ∧ m.event p = some .reset ∧ m.edge latency p = { st := m.st.resetBlock, busy := none })

/-- R94: the phase transition table, every column for every phase, with ERR where a cell names it and unchanged where it
does not. -/
def Obligations.PhaseTransitionTable : Prop :=
  ∀ (t : Transaction) (s : State), ∃ u, accept (.command t) s = .next u ∧
    (decodeCommand t = .instr .nop → u.block.phase = s.block.phase ∧ u.block.err = s.block.err) ∧
    (∀ c d k0 k1, decodeCommand t = .instr (.init c d k0 k1) → 1 ≤ c.toNat → 1 ≤ d.toNat →
      u.block.phase = .absorbing ∧ u.block.err = .none) ∧
    (∀ c d k0 k1, decodeCommand t = .instr (.init c d k0 k1) → c = 0 ∨ d = 0 →
      u.block.phase = .unkeyed ∧ u.block.err = .config) ∧
    (∀ n x, decodeCommand t = .instr (.write n x) → u.block.phase = s.block.phase ∧
      u.block.err = match s.block.phase with
        | .absorbing => s.block.err
        | .unkeyed | .finished | .faulted => .invalidState) ∧
    (decodeCommand t = .instr .finish → match s.block.phase with
      | .unkeyed => u.block.phase = .unkeyed ∧ u.block.err = .invalidState
      | .absorbing => u.block.phase = .finished ∧ u.block.err = s.block.err
      | .finished => u.block.phase = .finished ∧ u.block.err = .invalidState
      | .faulted => u.block.phase = .faulted ∧ u.block.err = .invalidState) ∧
    (∀ why, decodeCommand t = .illegal why → u.block.err = .badCommand ∧ u.block.phase =
      match s.block.phase with
      | .unkeyed => .unkeyed
      | .absorbing => .faulted
      | .finished => .finished
      | .faulted => .faulted)

/-- 10 section 3, ERR (R22's stickiness): a step that ends with ERR = NONE began so, or ran a successful INIT or a reset. -/
def Obligations.OnlyInitOrResetClearsErr : Prop :=
  ∀ s t : State, step s = .next t → t.block.err = .none → s.block.err ≠ .none →
    ∃ op rest, s.ops = op :: rest ∧ (op = .reset ∨ IsGoodInit op)

/-- 60 section 2, recovery (R91): ABSORBING is entered only by a successful INIT, in one step. -/
def Obligations.OnlyInitEntersAbsorbing : Prop :=
  ∀ s t : State, step s = .next t → t.block.phase = .absorbing → s.block.phase ≠ .absorbing →
    ∃ op rest, s.ops = op :: rest ∧ IsGoodInit op

/-- 10 section 3, CR and DR (R20): only a successful INIT and reset write the schedule. -/
def Obligations.ScheduleIsFixedPerInstance : Prop :=
  ∀ s t : State, step s = .next t → (t.block.cr ≠ s.block.cr ∨ t.block.dr ≠ s.block.dr) →
    ∃ op rest, s.ops = op :: rest ∧ (op = .reset ∨ IsGoodInit op)

/-- 10 section 1 (R16): a step that changes a lane ran reset, a successful INIT, a FINISH in ABSORBING, or a WRITE in
ABSORBING that completes a block. -/
def Obligations.OnlyTheDatapathWritesLanes : Prop :=
  ∀ s t : State, step s = .next t → t.block.lanes ≠ s.block.lanes →
    ∃ op rest, s.ops = op :: rest ∧
      (op = .reset ∨ IsGoodInit op ∨
       (s.block.phase = .absorbing ∧ ∃ tx, op = .access (.command tx) ∧
         (decodeCommand tx = .instr .finish ∨
          ∃ n x, decodeCommand tx = .instr (.write n x) ∧ 8 ≤ s.block.plen.toNat + n.toNat)))

/-- 10 section 3, RESULT (R23): a step that changes RESULT ran a FINISH in ABSORBING, or an INIT or a reset, which leave 0. -/
def Obligations.ResultIsWrittenByFinishAndCleared : Prop :=
  ∀ s t : State, step s = .next t → t.block.result ≠ s.block.result →
    ∃ op rest, s.ops = op :: rest ∧
      ((op = .reset ∧ t.block.result = 0) ∨
       (∃ tx, op = .access (.command tx) ∧
         ((∃ c d k0 k1, decodeCommand tx = .instr (.init c d k0 k1) ∧ t.block.result = 0) ∨
          (decodeCommand tx = .instr .finish ∧ s.block.phase = .absorbing ∧ t.block.phase = .finished ∧
            t.block.result = t.block.lanes.digest))))

/-- 10 section 6, item 5: from any UNKEYED state, any number of steps without a successful INIT ends UNKEYED. -/
def Obligations.UnkeyedUntilASuccessfulInit : Prop :=
  ∀ (k : Nat) (s t : State), s.block.phase = .unkeyed → (∀ op ∈ s.ops, ¬IsGoodInit op) →
    run k s = .next t → t.block.phase = .unkeyed

/-! ### Frames -/

/-- What each instruction leaves unchanged: the build and the host's queue always; the log of reads but for RD; and of the
block, NOP and RD everything, a raised error all but ERR and PHASE (and RESULT for INIT), WRITE in ABSORBING all but lanes,
BUF, PLEN and LEN (the lanes too when no block completes), FINISH in ABSORBING all but lanes, RESULT and PHASE. -/
def Obligations.InstructionFrames : Prop :=
  ∀ (i : Instr) (s t : State), exec i s = .next t →
    t.cfg = s.cfg ∧ t.ops = s.ops ∧
    ((∀ a, i ≠ .rd a) → t.reads = s.reads) ∧
    (i = .nop ∨ (∃ a, i = .rd a) → t.block = s.block) ∧
    (∀ n x, i = .write n x → t.block.cr = s.block.cr ∧ t.block.dr = s.block.dr ∧ t.block.result = s.block.result ∧
      (n.toNat ≤ 8 → t.block.phase = s.block.phase) ∧
      (n.toNat ≤ 8 → s.block.phase = .absorbing → t.block.err = s.block.err) ∧
      (8 < n.toNat ∨ s.block.phase ≠ .absorbing → t.block.lanes = s.block.lanes ∧ t.block.buf = s.block.buf ∧
        t.block.plen = s.block.plen ∧ t.block.len = s.block.len) ∧
      (s.block.plen.toNat + n.toNat < 8 → t.block.lanes = s.block.lanes)) ∧
    (i = .finish → t.block.buf = s.block.buf ∧ t.block.plen = s.block.plen ∧ t.block.len = s.block.len ∧
      t.block.cr = s.block.cr ∧ t.block.dr = s.block.dr ∧
      (s.block.phase = .absorbing → t.block.err = s.block.err) ∧
      (s.block.phase ≠ .absorbing → t.block.lanes = s.block.lanes ∧ t.block.result = s.block.result ∧
        t.block.phase = s.block.phase)) ∧
    (∀ c d k0 k1, i = .init c d k0 k1 → c = 0 ∨ d = 0 → t.block.lanes = s.block.lanes ∧ t.block.buf = s.block.buf ∧
      t.block.plen = s.block.plen ∧ t.block.len = s.block.len ∧ t.block.cr = s.block.cr ∧ t.block.dr = s.block.dr)

/-- R84's last sentence and 70 section 4: no step writes the parameter; a step takes one operation from the queue, and adds
one value to the log exactly when that operation is a read. -/
def Obligations.StepKeepsTheBuildAndTakesOneOperation : Prop :=
  ∀ s t : State, step s = .next t →
    t.cfg = s.cfg ∧ t.ops = s.ops.tail ∧
    ((∃ a rest, s.ops = .access (.read a) :: rest ∧ t.reads = s.reads ++ [readReg s.cfg a s.block]) ∨
     ((∀ a rest, s.ops ≠ .access (.read a) :: rest) ∧ t.reads = s.reads))

/-! ### Reset and runs (70_reset_and_hazards.md) -/

/-- R30, R103: the reset values; the reset event gives them from any state and abandons a command in flight; STATUS after
reset for both builds. -/
def Obligations.ResetGivesTheResetState : Prop :=
  (∀ cfg : Config, (State.resetOf cfg).block =
    { lanes := { v0 := 0, v1 := 0, v2 := 0, v3 := 0 }, buf := 0, plen := 0, len := 0, cr := 2, dr := 4
      phase := .unkeyed, err := .none, result := 0 }) ∧
  (∀ (s : State) (cfg : Config) (rest : List HostOp), s.ops = .reset :: rest →
    step s = .next { s with block := (State.resetOf cfg).block, ops := rest }) ∧
  (∀ (latency : Block → Transaction → Nat) (p : Pins) (m : Clocked), p.rst = true →
    (m.edge latency p).st.block = State.reset.block ∧ (m.edge latency p).busy = none ∧
    m.accepts p = false ∧ m.cmdReady p = false) ∧
  statusWord { rawStateAccess := false } State.reset.block = 0x4200#64 ∧
  statusWord { rawStateAccess := true } State.reset.block = 0x4208#64

/-- 10 section 6: the reset state of every build has the invariants. -/
def Obligations.ResetHasTheInvariants : Prop :=
  ∀ cfg : Config, (State.resetOf cfg).block.Inv

/-- 10 section 6 (R31): every step keeps the invariants, from any state that has them. -/
def Obligations.EveryStepKeepsTheInvariants : Prop :=
  ∀ s t : State, s.block.Inv → step s = .next t → t.block.Inv

/-- A step runs the instruction its port access decodes to, with that access taken from the queue; with no operation
waiting it changes nothing; a table word put in front is what runs next. -/
def Obligations.StepRunsTheDecodedInstruction : Prop :=
  (∀ (s : State) (p : PortAccess) (rest : List HostOp) (i : Instr),
    s.ops = .access p :: rest → decode p = .instr i → step s = exec i { s with ops := rest }) ∧
  (∀ (s : State) (p : PortAccess) (rest : List HostOp) (why : IllegalWord),
    s.ops = .access p :: rest → decode p = .illegal why →
    step s = .next { s with ops := rest, block := s.block.raise .badCommand }) ∧
  (∀ s : State, s.ops = [] → step s = .next s) ∧
  (∀ (s : State) (nbits w : Nat) (i : Instr), decodeTableWord nbits w = some i →
    step (s.withFetchWord nbits w) = exec i s)

/-- R68: the step function is total and the block never stops: every transaction, ILLEGAL ones included, and every other
host operation has a successor state, in every state. -/
def Obligations.TheBlockNeverStops : Prop :=
  (∀ (t : Transaction) (s : State), ∃ u, accept (.command t) s = .next u ∧
    ∀ why, decodeCommand t = .illegal why → u = s.setBlock (s.block.raise .badCommand)) ∧
  (∀ (t : Transaction) (i : Instr) (s : State), decodeCommand t = .instr i →
    accept (.command t) s = exec i s ∧ ∃ u, exec i s = .next u) ∧
  (∀ (k : Nat) (s : State), ∃ u, run k s = .next u)

/-- 70 section 3 (R109, R110): what a command runs, counted on the command itself. The meter (`Metered.exec`, the model's
own, log entry 17) applies sipRound one application at a time and takes the bytes one at a time; the block it leaves is the
one exec leaves, and its counts are the table's (R110), at most 30 SipRounds and 8 byte steps. An illegal word runs none of
either. A whole message of L bytes and its FINISH run floor(L/8)*CR + CR + DR SipRounds and L byte steps. -/
def Obligations.RoundCountsAreBounded : Prop :=
  (∀ (i : Instr) (s : State), ∃ t, exec i s = .next t ∧
    let m := (Metered.start s.block).exec i
    m.block = t.block ∧
    m.sipRounds = sipRoundCount i s.block ∧ m.sipRounds ≤ 30 ∧
    m.byteSteps = byteStepCount i s.block ∧ m.byteSteps ≤ 8) ∧
  (∀ (t : Transaction) (why : IllegalWord) (s : State), decodeCommand t = .illegal why →
    ∃ u, accept (.command t) s = .next u ∧ u.block.lanes = s.block.lanes ∧ u.block.len = s.block.len) ∧
  (∀ (xs : List (Nibble × Word)) (s : State), s.block.phase = .absorbing → s.block.plen = 0 →
    (∀ x ∈ xs, x.1.toNat ≤ 8) →
    let m := (xs.foldl (fun (m : Metered) x => m.exec (.write x.1 x.2)) (Metered.start s.block)).exec .finish
    let size := (xs.map (fun x => x.1.toNat)).sum
    (∃ t, runOps ((xs.map fun x => issue (.write x.1 x.2)) ++ [issue .finish]) s = .next t ∧ m.block = t.block) ∧
    m.sipRounds = size / 8 * s.block.cr.toNat + s.block.cr.toNat + s.block.dr.toNat ∧
    m.byteSteps = size)

/-! ### Clock edges and instances -/

/-- 70 section 3 and 42 section 4: an idle block accepts exactly when cmd_valid = 1 and rst = 0 (R107); while the command
runs, cmd_ready is 0 and reads return the state before it (R86, R107); then its whole effect is there and cmd_ready is 1
again. That completion comes after exactly `latency` further edges, on the accepting edge for 0, is the model's own count of
CMD_LATENCY's clocks, which 92 D22 leaves open (log entry 16). -/
def Obligations.AcceptedCommandsCompleteInTime : Prop :=
  ∀ (latency : Block → Transaction → Nat) (m : Clocked) (p : Pins), m.busy = none →
    (m.accepts p = true ↔ p.cmdValid = true ∧ p.rst = false) ∧
    (m.accepts p = true → ∀ ps : List Pins, (∀ q ∈ ps, q.rst = false) →
      (ps.length < latency m.st.block p.tx →
        let m' := (Clocked.runEdges latency (p :: ps) m).1
        m'.st = m.st ∧ ∀ q : Pins, m'.cmdReady q = false ∧ m'.accepts q = false ∧
          m'.rdData q = readReg m.st.cfg q.rdAddr m.st.block) ∧
      (ps.length = latency m.st.block p.tx →
        let m' := (Clocked.runEdges latency (p :: ps) m).1
        accept (.command p.tx) m.st = .next m'.st ∧ m'.busy = none ∧
          ∀ q : Pins, q.rst = false → m'.cmdReady q = true))

/-- 20 section 5 and 70 section 3: for every latency and every sequence of clock edges, the clocked block is the
transaction-level machine run on the resets and accepted commands, in order. -/
def Obligations.ClockEdgesRefineTransactions : Prop :=
  ∀ (latency : Block → Transaction → Nat) (ps : List Pins) (m : Clocked),
    runOps (Clocked.runEdges latency ps m).2 m.committed =
      .next ((Clocked.runEdges latency ps m).1.committed.setOps [])

/-- 60 section 4 (R100): a step of one instance changes no other. -/
def Obligations.InstancesShareNoState : Prop :=
  ∀ (k : Nat) (is : Instances) (s : State), is[k]? = some s →
    (stepInstance k is).length = is.length ∧
    (∃ t, step s = .next t ∧ (stepInstance k is)[k]? = some t) ∧
    ∀ j, j ≠ k → (stepInstance k is)[j]? = is[j]?
end

