-- ==== Sys2Proof/Laws/State.lean ====
section
/-! SUPPORT. One lemma per field per named update of State and Block, true by rfl: no proof unfolds a record update. -/

namespace Sys2Proof.Machine

/-! ### State.setBlock -/

@[simp] theorem State.setBlock_block (b : Block) (s : State) : (s.setBlock b).block = b := rfl
@[simp] theorem State.setBlock_cfg (b : Block) (s : State) : (s.setBlock b).cfg = s.cfg := rfl
@[simp] theorem State.setBlock_ops (b : Block) (s : State) : (s.setBlock b).ops = s.ops := rfl
@[simp] theorem State.setBlock_reads (b : Block) (s : State) : (s.setBlock b).reads = s.reads := rfl
@[simp] theorem State.setBlock_self (s : State) : s.setBlock s.block = s := rfl
@[simp] theorem State.setBlock_setBlock (b c : Block) (s : State) : (s.setBlock b).setBlock c = s.setBlock c := rfl

/-! ### State.setOps -/

@[simp] theorem State.setOps_block (ops : List HostOp) (s : State) : (s.setOps ops).block = s.block := rfl
@[simp] theorem State.setOps_cfg (ops : List HostOp) (s : State) : (s.setOps ops).cfg = s.cfg := rfl
@[simp] theorem State.setOps_ops (ops : List HostOp) (s : State) : (s.setOps ops).ops = ops := rfl
@[simp] theorem State.setOps_reads (ops : List HostOp) (s : State) : (s.setOps ops).reads = s.reads := rfl
@[simp] theorem State.setOps_self (s : State) : s.setOps s.ops = s := rfl
@[simp] theorem State.setOps_setOps (o p : List HostOp) (s : State) : (s.setOps o).setOps p = s.setOps p := rfl

/-- The two named updates of different fields commute; simp brings setBlock innermost. -/
@[simp] theorem State.setOps_setBlock (ops : List HostOp) (b : Block) (s : State) :
    (s.setOps ops).setBlock b = (s.setBlock b).setOps ops := rfl

/-! ### State.logRead -/

@[simp] theorem State.logRead_block (w : Word) (s : State) : (s.logRead w).block = s.block := rfl
@[simp] theorem State.logRead_cfg (w : Word) (s : State) : (s.logRead w).cfg = s.cfg := rfl
@[simp] theorem State.logRead_ops (w : Word) (s : State) : (s.logRead w).ops = s.ops := rfl
@[simp] theorem State.logRead_reads (w : Word) (s : State) : (s.logRead w).reads = s.reads ++ [w] := rfl

/-! ### State.resetBlock -/

@[simp] theorem State.resetBlock_block (s : State) : s.resetBlock.block = Block.reset := rfl
@[simp] theorem State.resetBlock_cfg (s : State) : s.resetBlock.cfg = s.cfg := rfl
@[simp] theorem State.resetBlock_ops (s : State) : s.resetBlock.ops = s.ops := rfl
@[simp] theorem State.resetBlock_reads (s : State) : s.resetBlock.reads = s.reads := rfl

/-! ### Block.setLanes -/

@[simp] theorem Block.setLanes_lanes (v : Lanes) (b : Block) : (b.setLanes v).lanes = v := rfl
@[simp] theorem Block.setLanes_buf (v : Lanes) (b : Block) : (b.setLanes v).buf = b.buf := rfl
@[simp] theorem Block.setLanes_plen (v : Lanes) (b : Block) : (b.setLanes v).plen = b.plen := rfl
@[simp] theorem Block.setLanes_len (v : Lanes) (b : Block) : (b.setLanes v).len = b.len := rfl
@[simp] theorem Block.setLanes_cr (v : Lanes) (b : Block) : (b.setLanes v).cr = b.cr := rfl
@[simp] theorem Block.setLanes_dr (v : Lanes) (b : Block) : (b.setLanes v).dr = b.dr := rfl
@[simp] theorem Block.setLanes_phase (v : Lanes) (b : Block) : (b.setLanes v).phase = b.phase := rfl
@[simp] theorem Block.setLanes_err (v : Lanes) (b : Block) : (b.setLanes v).err = b.err := rfl
@[simp] theorem Block.setLanes_result (v : Lanes) (b : Block) : (b.setLanes v).result = b.result := rfl

/-! ### Block.setPending -/

section
variable (buf : Word) (plen : BitVec 3) (len : Word) (b : Block)

@[simp] theorem Block.setPending_lanes : (b.setPending buf plen len).lanes = b.lanes := rfl
@[simp] theorem Block.setPending_buf : (b.setPending buf plen len).buf = buf := rfl
@[simp] theorem Block.setPending_plen : (b.setPending buf plen len).plen = plen := rfl
@[simp] theorem Block.setPending_len : (b.setPending buf plen len).len = len := rfl
@[simp] theorem Block.setPending_cr : (b.setPending buf plen len).cr = b.cr := rfl
@[simp] theorem Block.setPending_dr : (b.setPending buf plen len).dr = b.dr := rfl
@[simp] theorem Block.setPending_phase : (b.setPending buf plen len).phase = b.phase := rfl
@[simp] theorem Block.setPending_err : (b.setPending buf plen len).err = b.err := rfl
@[simp] theorem Block.setPending_result : (b.setPending buf plen len).result = b.result := rfl
end

/-! ### Block.raise -/

@[simp] theorem Block.raise_lanes (e : Cause) (b : Block) : (b.raise e).lanes = b.lanes := rfl
@[simp] theorem Block.raise_buf (e : Cause) (b : Block) : (b.raise e).buf = b.buf := rfl
@[simp] theorem Block.raise_plen (e : Cause) (b : Block) : (b.raise e).plen = b.plen := rfl
@[simp] theorem Block.raise_len (e : Cause) (b : Block) : (b.raise e).len = b.len := rfl
@[simp] theorem Block.raise_cr (e : Cause) (b : Block) : (b.raise e).cr = b.cr := rfl
@[simp] theorem Block.raise_dr (e : Cause) (b : Block) : (b.raise e).dr = b.dr := rfl
@[simp] theorem Block.raise_phase (e : Cause) (b : Block) : (b.raise e).phase = e.phaseAfter b.phase := rfl
@[simp] theorem Block.raise_err (e : Cause) (b : Block) : (b.raise e).err = e.err := rfl
@[simp] theorem Block.raise_result (e : Cause) (b : Block) : (b.raise e).result = b.result := rfl

/-! ### Lanes -/

@[simp] theorem Lanes.xorV0_eq (m : Word) (v : Lanes) : v.xorV0 m = ⟨v.v0 ^^^ m, v.v1, v.v2, v.v3⟩ := rfl
@[simp] theorem Lanes.xorV2_eq (m : Word) (v : Lanes) : v.xorV2 m = ⟨v.v0, v.v1, v.v2 ^^^ m, v.v3⟩ := rfl
@[simp] theorem Lanes.xorV3_eq (m : Word) (v : Lanes) : v.xorV3 m = ⟨v.v0, v.v1, v.v2, v.v3 ^^^ m⟩ := rfl

end Sys2Proof.Machine
end

