-- ==== Sys2Proof/Laws/Operands.lean ====
section
/-! SUPPORT. Bytes and words: what a bit of a packed word is, packing and unpacking undo each other, packing of a
concatenation (R9, R32, R33, R72). -/

namespace Sys2Proof.Machine

theorem getLsbD_byteOf (w : Word) (k i : Nat) :
    (byteOf w k).getLsbD i = (decide (i < 8) && w.getLsbD (8 * k + i)) := by
  simp [byteOf]

/-- A bit of LE64 is the bit of the byte it lies in. -/
theorem getLsbD_le64 (bs : List Byte) (j : Nat) :
    (le64 bs).getLsbD j = (decide (j < 64) && (bs.getD (j / 8) 0).getLsbD (j % 8)) := by
  induction bs generalizing j with
  | nil => simp [le64]
  | cons b bs ih =>
    by_cases h8 : j < 8
    · have h0 : j / 8 = 0 := by omega
      have hm : j % 8 = j := by omega
      simp [le64, BitVec.getLsbD_setWidth, h8, h0, hm]
    · have hd : j / 8 = (j - 8) / 8 + 1 := by omega
      have hm : j % 8 = (j - 8) % 8 := by omega
      have hb : b.getLsbD j = false := BitVec.getLsbD_of_ge b j (by omega)
      by_cases h64 : j < 64
      · have h64' : j - 8 < 64 := by omega
        simp [le64, ih, h8, h64, h64', hd, hm, hb, -BitVec.getLsbD_eq_getElem]
      · simp [le64, h64]

theorem byteOf_le64 (bs : List Byte) (k : Nat) (hk : k < 8) : byteOf (le64 bs) k = bs.getD k 0 := by
  apply BitVec.eq_of_getLsbD_eq
  intro i hi
  have h1 : (8 * k + i) / 8 = k := by omega
  have h2 : (8 * k + i) % 8 = i := by omega
  have h3 : 8 * k + i < 64 := by omega
  rw [getLsbD_byteOf, getLsbD_le64, h1, h2]
  simp [hi, h3]

theorem le64_append (xs ys : List Byte) : le64 (xs ++ ys) = le64 xs ||| (le64 ys <<< (8 * xs.length)) := by
  apply BitVec.eq_of_getLsbD_eq
  intro j hj
  simp only [getLsbD_le64, BitVec.getLsbD_or, BitVec.getLsbD_shiftLeft, hj, decide_true, Bool.true_and]
  by_cases h : j < 8 * xs.length
  · have h1 : j / 8 < xs.length := by omega
    simp [h, List.getElem?_append_left h1]
  · have h1 : xs.length ≤ j / 8 := by omega
    have h2 : (j - 8 * xs.length) / 8 = j / 8 - xs.length := by omega
    have h3 : (j - 8 * xs.length) % 8 = j % 8 := by omega
    have h4 : j - 8 * xs.length < 64 := by omega
    simp [h, h2, h3, h4, List.getElem?_append_right h1, List.getElem?_eq_none h1]

@[simp] theorem length_operandBytes (n : Nat) (x : Word) : (operandBytes n x).length = n := by
  simp [operandBytes]

theorem getD_operandBytes (n : Nat) (x : Word) (k : Nat) :
    (operandBytes n x).getD k 0 = if k < n then byteOf x k else 0 := by
  by_cases h : k < n <;> simp [operandBytes, h]

/-- Unpacking what a chunk of at most 8 bytes was packed into gives the chunk. -/
theorem operandBytes_le64 (bs : List Byte) (h : bs.length ≤ 8) : operandBytes bs.length (le64 bs) = bs := by
  apply List.ext_getElem
  · simp
  · intro k h1 h2
    have hk : k < 8 := by omega
    have := byteOf_le64 bs k hk
    simp only [operandBytes, List.getElem_map, List.getElem_range, this]
    simp [h2]

theorem getLsbD_lowMask (n j : Nat) (hj : j < 64) :
    (BitVec.ofNat 64 (2 ^ (8 * n) - 1)).getLsbD j = decide (j < 8 * n) := by
  simp [BitVec.getLsbD_ofNat, hj, Nat.testBit_two_pow_sub_one, -BitVec.getLsbD_eq_getElem]

/-- Packing the operand bytes of a WRITE keeps the low 8n bits of DATA0 (R72). -/
theorem le64_operandBytes (n : Nat) (x : Word) : le64 (operandBytes n x) = lowBytes n x := by
  apply BitVec.eq_of_getLsbD_eq
  intro j hj
  rw [getLsbD_le64, getD_operandBytes, lowBytes, BitVec.getLsbD_and, getLsbD_lowMask n j hj]
  have h1 : 8 * (j / 8) + j % 8 = j := by omega
  have h2 : j % 8 < 8 := by omega
  by_cases h : j / 8 < n
  · have h3 : j < 8 * n := by omega
    simp [h, h3, hj, getLsbD_byteOf, h1, h2, -BitVec.getLsbD_eq_getElem]
  · have h3 : ¬ j < 8 * n := by omega
    simp [h, h3]

/-- A clean buffer is the packing of its own pending bytes. -/
theorem le64_operandBytes_of_clean (w : Word) (n : Nat) (h : w >>> (8 * n) = 0) : le64 (operandBytes n w) = w := by
  rw [le64_operandBytes]
  apply BitVec.eq_of_getLsbD_eq
  intro j hj
  rw [lowBytes, BitVec.getLsbD_and, getLsbD_lowMask n j hj]
  by_cases hn : j < 8 * n
  · simp [hn]
  · have h1 : (w >>> (8 * n)).getLsbD (j - 8 * n) = w.getLsbD j := by
      rw [BitVec.getLsbD_ushiftRight]; congr 1; omega
    rw [h] at h1
    simp at h1
    simp [hn, ← h1]

/-- The packing of fewer than eight bytes is clean above them. -/
theorem le64_clean (bs : List Byte) (n : Nat) (h : bs.length ≤ n) : le64 bs >>> (8 * n) = 0 := by
  apply BitVec.eq_of_getLsbD_eq
  intro j hj
  have h1 : bs.length ≤ (8 * n + j) / 8 := by omega
  rw [BitVec.getLsbD_ushiftRight, getLsbD_le64]
  simp [List.getElem?_eq_none h1]

theorem operandBytes_add (n m : Nat) (x : Word) :
    operandBytes (n + m) x = operandBytes n x ++ operandBytes m (x >>> (8 * n)) := by
  unfold operandBytes
  rw [List.range_add, List.map_append, List.map_map]
  congr 1
  apply List.map_congr_left
  intro k _
  apply BitVec.eq_of_getLsbD_eq
  intro i hi
  simp only [Function.comp, getLsbD_byteOf, BitVec.getLsbD_ushiftRight]
  congr 2
  omega

/-- A word holds eight bytes: later ones do not count. -/
theorem le64_take (bs : List Byte) : le64 (bs.take 8) = le64 bs := by
  apply BitVec.eq_of_getLsbD_eq
  intro j hj
  have h : j / 8 < 8 := by omega
  rw [getLsbD_le64, getLsbD_le64]
  simp [h]

/-- Dropping bytes of a word shifts it right. -/
theorem le64_drop (bs : List Byte) (k : Nat) (h : bs.length ≤ 8) : le64 (bs.drop k) = le64 bs >>> (8 * k) := by
  apply BitVec.eq_of_getLsbD_eq
  intro j hj
  have h1 : (8 * k + j) / 8 = k + j / 8 := by omega
  have h2 : (8 * k + j) % 8 = j % 8 := by omega
  rw [BitVec.getLsbD_ushiftRight, getLsbD_le64, getLsbD_le64]
  by_cases h3 : 8 * k + j < 64
  · simp [h1, h2, h3, hj]
  · have h4 : bs.length ≤ k + j / 8 := by omega
    simp [h3, List.getElem?_eq_none h4, hj]

end Sys2Proof.Machine
end

