-- ==== Sys2Proof/Laws/Ops.lean ====
section
/-! SUPPORT. What the shared operations of Machine/Ops.lean can do: repeated rounds, raising an error. -/

namespace Sys2Proof.Machine

theorem rotl64_eq_rotateLeft (a : Word) (r : Nat) (h : r < 64) : rotl64 a r = a.rotateLeft r := by
  rw [BitVec.rotateLeft_eq_rotateLeftAux_of_lt h]; rfl

theorem sipRounds_eq_iterate (n : Nat) (v : Lanes) : sipRounds n v = sipRound^[n] v := by
  induction n generalizing v with
  | zero => rfl
  | succ n ih => rw [sipRounds, ih, Function.iterate_succ_apply]

@[simp] theorem Cause.phaseAfter_config (p : Phase) : Cause.config.phaseAfter p = .unkeyed := rfl
@[simp] theorem Cause.phaseAfter_invalidState (p : Phase) : Cause.invalidState.phaseAfter p = p := rfl
@[simp] theorem Cause.phaseAfter_badCommand (p : Phase) :
    Cause.badCommand.phaseAfter p = if p = .absorbing then .faulted else p := by cases p <;> rfl
@[simp] theorem Cause.err_config : Cause.config.err = .config := rfl
@[simp] theorem Cause.err_invalidState : Cause.invalidState.err = .invalidState := rfl
@[simp] theorem Cause.err_badCommand : Cause.badCommand.err = .badCommand := rfl

/-- An error never starts or finishes an instance. -/
theorem Cause.phaseAfter_eq (e : Cause) (p : Phase) :
    e.phaseAfter p = p ∨ e.phaseAfter p = .unkeyed ∨ (p = .absorbing ∧ e.phaseAfter p = .faulted) := by
  cases e <;> cases p <;> simp

theorem Block.absorbBlock_eq (m : Word) (b : Block) :
    b.absorbBlock m = b.setLanes (absorbLanes b.cr.toNat m b.lanes) := rfl

end Sys2Proof.Machine
end

