-- ==== Sys2Proof/Laws/Packer.lean ====
section
/-! SUPPORT. WRITE's byte loop: what it leaves alone, and that it feeds a stream: the lanes absorb the whole blocks of the
pending bytes followed by the new ones, and the buffer keeps the rest (R71, R72, R75). -/

namespace Sys2Proof.Machine

/-! ### What the loop leaves alone -/

section
variable (x : Byte) (xs : List Byte) (b : Block)

@[simp] theorem Block.takeByte_cr : (b.takeByte x).cr = b.cr := by unfold Block.takeByte; split <;> rfl
@[simp] theorem Block.takeByte_dr : (b.takeByte x).dr = b.dr := by unfold Block.takeByte; split <;> rfl
@[simp] theorem Block.takeByte_phase : (b.takeByte x).phase = b.phase := by unfold Block.takeByte; split <;> rfl
@[simp] theorem Block.takeByte_err : (b.takeByte x).err = b.err := by unfold Block.takeByte; split <;> rfl
@[simp] theorem Block.takeByte_result : (b.takeByte x).result = b.result := by unfold Block.takeByte; split <;> rfl
@[simp] theorem Block.takeByte_len : (b.takeByte x).len = b.len + 1 := by unfold Block.takeByte; split <;> rfl

@[simp] theorem Block.takeBytes_nil : b.takeBytes [] = b := rfl
@[simp] theorem Block.takeBytes_cons : b.takeBytes (x :: xs) = (b.takeByte x).takeBytes xs := rfl
end

@[simp] theorem Block.takeBytes_cr (xs : List Byte) (b : Block) : (b.takeBytes xs).cr = b.cr := by
  induction xs generalizing b <;> simp [*]
@[simp] theorem Block.takeBytes_dr (xs : List Byte) (b : Block) : (b.takeBytes xs).dr = b.dr := by
  induction xs generalizing b <;> simp [*]
@[simp] theorem Block.takeBytes_phase (xs : List Byte) (b : Block) : (b.takeBytes xs).phase = b.phase := by
  induction xs generalizing b <;> simp [*]
@[simp] theorem Block.takeBytes_err (xs : List Byte) (b : Block) : (b.takeBytes xs).err = b.err := by
  induction xs generalizing b <;> simp [*]
@[simp] theorem Block.takeBytes_result (xs : List Byte) (b : Block) : (b.takeBytes xs).result = b.result := by
  induction xs generalizing b <;> simp [*]

theorem Block.takeBytes_len (xs : List Byte) (b : Block) :
    (b.takeBytes xs).len = b.len + BitVec.ofNat 64 xs.length := by
  induction xs generalizing b with
  | nil => simp
  | cons x xs ih =>
    simp only [Block.takeBytes_cons, ih, Block.takeByte_len, List.length_cons]
    apply BitVec.eq_of_toNat_eq; simp; omega

theorem Block.takeBytes_append (xs ys : List Byte) (b : Block) :
    b.takeBytes (xs ++ ys) = (b.takeBytes xs).takeBytes ys := by
  induction xs generalizing b <;> simp [*]

/-! ### Counting -/

theorem Block.takeByte_plen (x : Byte) (b : Block) : (b.takeByte x).plen = b.plen + 1 := by
  unfold Block.takeByte
  split
  · next h =>
    have : b.plen = 7 := by apply BitVec.eq_of_toNat_eq; simp; omega
    simp [this]
  · rfl

theorem Block.takeBytes_plen (xs : List Byte) (b : Block) :
    (b.takeBytes xs).plen.toNat = (b.plen.toNat + xs.length) % 8 := by
  induction xs generalizing b with
  | nil => have := b.plen.isLt; simp; omega
  | cons x xs ih =>
    simp only [Block.takeBytes_cons, ih, Block.takeByte_plen, List.length_cons, BitVec.toNat_add]
    simp; omega

/-- Bytes that do not complete a block leave the lanes alone. -/
theorem Block.takeBytes_lanes_of_lt (xs : List Byte) (b : Block) (h : b.plen.toNat + xs.length < 8) :
    (b.takeBytes xs).lanes = b.lanes := by
  induction xs generalizing b with
  | nil => rfl
  | cons x xs ih =>
    simp only [List.length_cons] at h
    have h1 : ¬ b.plen.toNat + 1 = 8 := by omega
    have h2 : (b.takeByte x) = b.setPending (b.filled x) (b.plen + 1) (add64 b.len 1) := by
      unfold Block.takeByte; simp [h1]
    rw [Block.takeBytes_cons, ih, h2]; · rfl
    rw [h2]; simp [BitVec.toNat_add]; omega

/-! ### Whole blocks of a stream -/

theorem absorbAll_of_lt (c : Nat) (s : List Byte) (v : Lanes) (h : s.length < 8) : absorbAll c s v = v := by
  have : s.length / 8 = 0 := by omega
  simp [absorbAll, this]

theorem absorbAll_append (c : Nat) (head rest : List Byte) (v : Lanes) (h : head.length = 8) :
    absorbAll c (head ++ rest) v = absorbAll c rest (absorbLanes c (le64 head) v) := by
  have hl : (head ++ rest).length / 8 = rest.length / 8 + 1 := by simp [h]
  have h0 : blockAt (head ++ rest) 0 = le64 head := by
    simp [blockAt, ← h]
  have hs : ∀ i, blockAt (head ++ rest) (i + 1) = blockAt rest i := by
    intro i
    have h1 : 8 * (i + 1) = head.length + 8 * i := by omega
    simp [blockAt, h1, List.drop_append, List.drop_eq_nil_of_le]
  rw [absorbAll, hl, List.range_succ_eq_map, List.foldl_cons, List.foldl_map, h0]
  simp only [hs, Nat.succ_eq_add_one, absorbAll]

theorem tailBytes_of_lt (s : List Byte) (h : s.length < 8) : tailBytes s = s := by
  have : s.length / 8 = 0 := by omega
  simp [tailBytes, this]

theorem tailBytes_append (head rest : List Byte) (h : head.length = 8) : tailBytes (head ++ rest) = tailBytes rest := by
  have h1 : 8 * ((head ++ rest).length / 8) = head.length + 8 * (rest.length / 8) := by simp [h]; omega
  rw [tailBytes, h1, tailBytes]
  simp [List.drop_append, List.drop_eq_nil_of_le]

theorem length_tailBytes (s : List Byte) : (tailBytes s).length = s.length % 8 := by
  simp only [tailBytes, List.length_drop]; omega

/-- The byte loop feeds the stream: with `pend` pending, the new bytes `xs` extend it. -/
theorem Block.takeBytes_stream (xs pend : List Byte) (b : Block)
    (hbuf : b.buf = le64 pend) (hplen : b.plen.toNat = pend.length) :
    (b.takeBytes xs).lanes = absorbAll b.cr.toNat (pend ++ xs) b.lanes ∧
    (b.takeBytes xs).buf = le64 (tailBytes (pend ++ xs)) := by
  induction xs generalizing pend b with
  | nil =>
    have h := b.plen.isLt
    have h8 : (pend ++ ([] : List Byte)).length < 8 := by simp; omega
    rw [absorbAll_of_lt _ _ _ h8, tailBytes_of_lt _ h8]
    simp [hbuf]
  | cons x xs ih =>
    have hf : b.filled x = le64 (pend ++ [x]) := by
      rw [Block.filled, le64_append, hbuf, hplen]; simp [le64]
    have hsplit : pend ++ x :: xs = (pend ++ [x]) ++ xs := by simp
    rw [Block.takeBytes_cons]
    by_cases h : b.plen.toNat + 1 = 8
    · have h8 : (pend ++ [x]).length = 8 := by simp; omega
      have ht : b.takeByte x = (b.absorbBlock (b.filled x)).setPending 0 0 (add64 b.len 1) := by
        unfold Block.takeByte; simp [h]
      obtain ⟨h1, h2⟩ := ih [] (b.takeByte x) (by rw [ht]; rfl) (by rw [ht]; rfl)
      rw [hsplit, absorbAll_append _ _ _ _ h8, tailBytes_append _ _ h8, h1, h2, ht]
      simp [Block.absorbBlock_eq, hf]
    · have ht : b.takeByte x = b.setPending (b.filled x) (b.plen + 1) (add64 b.len 1) := by
        unfold Block.takeByte; simp [h]
      have h8 := b.plen.isLt
      obtain ⟨h1, h2⟩ := ih (pend ++ [x]) (b.takeByte x) (by rw [ht]; exact hf)
        (by rw [ht]; simp [BitVec.toNat_add]; omega)
      rw [hsplit, h1, h2, ht]
      simp

/-- Eight to fifteen bytes hold one whole block. -/
theorem absorbAll_of_one (c : Nat) (bs : List Byte) (v : Lanes) (h1 : 8 ≤ bs.length) (h2 : bs.length < 16) :
    absorbAll c bs v = absorbLanes c (le64 bs) v := by
  conv_lhs => rw [← List.take_append_drop 8 bs]
  rw [absorbAll_append _ _ _ _ (by simp; omega), absorbAll_of_lt _ _ _ (by simp; omega), le64_take]

theorem tailBytes_of_one (bs : List Byte) (h1 : 8 ≤ bs.length) (h2 : bs.length < 16) : tailBytes bs = bs.drop 8 := by
  conv_lhs => rw [← List.take_append_drop 8 bs]
  rw [tailBytes_append _ _ (by simp; omega), tailBytes_of_lt _ (by simp; omega)]

/-- The whole block after the byte loop of a WRITE, when the buffer is clean: `p` pending bytes followed by the operand's. -/
theorem Block.takeBytes_eq (b : Block) (n : Nat) (x : Word) (hc : b.buf >>> (8 * b.plen.toNat) = 0) :
    b.takeBytes (operandBytes n x) =
      { b with
        lanes := absorbAll b.cr.toNat (operandBytes b.plen.toNat b.buf ++ operandBytes n x) b.lanes
        buf := le64 (tailBytes (operandBytes b.plen.toNat b.buf ++ operandBytes n x))
        plen := BitVec.ofNat 3 (b.plen.toNat + n)
        len := b.len + BitVec.ofNat 64 n } := by
  obtain ⟨h1, h2⟩ := Block.takeBytes_stream (operandBytes n x) (operandBytes b.plen.toNat b.buf) b
    (le64_operandBytes_of_clean _ _ hc).symm (by simp)
  have h3 := Block.takeBytes_len (operandBytes n x) b
  have h4 : (b.takeBytes (operandBytes n x)).plen = BitVec.ofNat 3 (b.plen.toNat + n) := by
    apply BitVec.eq_of_toNat_eq
    rw [Block.takeBytes_plen]; simp
  have h5 := Block.takeBytes_cr (operandBytes n x) b
  have h6 := Block.takeBytes_dr (operandBytes n x) b
  have h7 := Block.takeBytes_phase (operandBytes n x) b
  have h8 := Block.takeBytes_err (operandBytes n x) b
  have h9 := Block.takeBytes_result (operandBytes n x) b
  generalize b.takeBytes (operandBytes n x) = r at *
  cases r
  simp only [length_operandBytes] at h3
  simp only at h1 h2 h3 h4 h5 h6 h7 h8 h9
  simp only [h1, h2, h3, h4, h5, h6, h7, h8, h9]

/-- The pending bytes and the operand's, packed: R72's `BUF | (d << 8p)`. -/
theorem le64_pending_append (b : Block) (n : Nat) (x : Word) (hc : b.buf >>> (8 * b.plen.toNat) = 0) :
    le64 (operandBytes b.plen.toNat b.buf ++ operandBytes n x) =
      b.buf ||| (lowBytes n x <<< (8 * b.plen.toNat)) := by
  rw [le64_append, le64_operandBytes_of_clean _ _ hc, le64_operandBytes]; simp

end Sys2Proof.Machine
end

