-- ==== Sys2Proof/Laws/Cost.lean ====
section
/-! SUPPORT. What each part of the meter of Machine/Cost.lean leaves: the block of the unmetered operation, and how far its
two counts have advanced. -/

namespace Sys2Proof.Machine

section
variable (f : Block → Block) (m : Metered)

@[simp] theorem Metered.free_block : (m.free f).block = f m.block := rfl
@[simp] theorem Metered.free_sipRounds : (m.free f).sipRounds = m.sipRounds := rfl
@[simp] theorem Metered.free_byteSteps : (m.free f).byteSteps = m.byteSteps := rfl
@[simp] theorem Metered.start_block (b : Block) : (Metered.start b).block = b := rfl
@[simp] theorem Metered.start_sipRounds (b : Block) : (Metered.start b).sipRounds = 0 := rfl
@[simp] theorem Metered.start_byteSteps (b : Block) : (Metered.start b).byteSteps = 0 := rfl
end

/-- n rounds: their lanes, n counted, no byte taken. -/
theorem Metered.rounds_eq (n : Nat) (m : Metered) : m.rounds n =
    { block := m.block.setLanes (Machine.sipRounds n m.block.lanes), sipRounds := m.sipRounds + n
      byteSteps := m.byteSteps } := by
  induction n generalizing m with
  | zero => rfl
  | succ n ih =>
    rw [Metered.rounds, ih]
    simp only [Metered.round, Block.setLanes_lanes, Machine.sipRounds, Metered.mk.injEq, and_true]
    exact ⟨rfl, by omega⟩

/-- AbsorbBlock: its block, CR rounds counted, no byte taken. -/
theorem Metered.absorb_eq (w : Word) (m : Metered) : m.absorb w =
    { block := m.block.absorbBlock w, sipRounds := m.sipRounds + m.block.cr.toNat, byteSteps := m.byteSteps } := by
  simp only [Metered.absorb, Metered.rounds_eq]; rfl

/-- One turn of the byte loop: CR rounds exactly when it completes a block, and one byte. -/
theorem Metered.takeByte_eq (x : Byte) (m : Metered) : m.takeByte x =
    { block := m.block.takeByte x
      sipRounds := m.sipRounds + (if m.block.plen.toNat + 1 = 8 then m.block.cr.toNat else 0)
      byteSteps := m.byteSteps + 1 } := by
  simp only [Metered.takeByte, Metered.absorb_eq, Block.takeByte]
  split <;> rfl

/-- The byte loop: CR rounds for each block it completes, and one byte step a byte. -/
theorem Metered.takeBytes_eq (xs : List Byte) (m : Metered) : m.takeBytes xs =
    { block := m.block.takeBytes xs
      sipRounds := m.sipRounds + (m.block.plen.toNat + xs.length) / 8 * m.block.cr.toNat
      byteSteps := m.byteSteps + xs.length } := by
  induction xs generalizing m with
  | nil =>
    have := m.block.plen.isLt
    simp [Metered.takeBytes, Nat.div_eq_of_lt this]
  | cons x xs ih =>
    have hb := m.block.plen.isLt
    have hp : (m.block.takeByte x).plen.toNat = (m.block.plen.toNat + 1) % 8 := Block.takeBytes_plen [x] m.block
    rw [Metered.takeBytes, ih, Metered.takeByte_eq]
    simp only [Block.takeBytes_cons, Block.takeByte_cr, hp, List.length_cons, Metered.mk.injEq, true_and]
    refine ⟨?_, by omega⟩
    split
    · have e : (m.block.plen.toNat + (xs.length + 1)) / 8 = ((m.block.plen.toNat + 1) % 8 + xs.length) / 8 + 1 := by
        omega
      rw [e]; ring
    · have e : (m.block.plen.toNat + (xs.length + 1)) / 8 = ((m.block.plen.toNat + 1) % 8 + xs.length) / 8 := by
        omega
      rw [e]; ring

/-- FINISH in ABSORBING: its block, CR + DR rounds counted, no byte taken. -/
theorem Metered.finalize_eq (m : Metered) : m.finalize =
    { block := { m.block.setLanes m.block.finalLanes with result := m.block.finalLanes.digest, phase := .finished }
      sipRounds := m.sipRounds + (m.block.cr.toNat + m.block.dr.toNat), byteSteps := m.byteSteps } := by
  simp only [Metered.finalize, Metered.absorb_eq, Metered.rounds_eq, Metered.free, Metered.mk.injEq, and_true]
  exact ⟨rfl, by simp only [Block.absorbBlock, Block.setLanes]; omega⟩

/-- WRITE in ABSORBING: its block, CR rounds when it completes a block, and its bytes. -/
theorem Metered.exec_write (n : Nibble) (x : Word) (m : Metered) (hn : n.toNat ≤ 8) (hp : m.block.phase = .absorbing) :
    m.exec (.write n x) =
      { block := m.block.write n.toNat x
        sipRounds := m.sipRounds + (m.block.plen.toNat + n.toNat) / 8 * m.block.cr.toNat
        byteSteps := m.byteSteps + n.toNat } := by
  simp [Metered.exec, Block.write, hn, hp, Metered.takeBytes_eq, length_operandBytes]

end Sys2Proof.Machine
end

