-- ==== Sys2Proof/Laws/Decode.lean ====
section
/-! SUPPORT. What the decoder can do, said once, and the fields of a built command word (R49, R52). Proofs about decoding
cite `decodeCommand_cases` and do not unfold the decoder. -/

namespace Sys2Proof

/-! ### Fields -/

/-- A command word is built from its four fields. -/
theorem commandWord_fields (w : CmdWord) : commandWord (dField w) (cField w) (nField w) (opField w) = w := by
  apply BitVec.eq_of_getLsbD_eq
  intro i hi
  simp only [commandWord, dField, cField, nField, opField, BitVec.getLsbD_or, BitVec.getLsbD_shiftLeft,
    BitVec.getLsbD_setWidth, BitVec.getLsbD_extractLsb', hi]
  interval_cases i <;> simp

section
variable (d c n o : Nibble)

@[simp] theorem opField_commandWord : opField (commandWord d c n o) = o := by
  apply BitVec.eq_of_getLsbD_eq; intro i hi
  simp only [commandWord, opField, BitVec.getLsbD_or, BitVec.getLsbD_shiftLeft, BitVec.getLsbD_setWidth,
    BitVec.getLsbD_extractLsb', hi]
  interval_cases i <;> simp

@[simp] theorem nField_commandWord : nField (commandWord d c n o) = n := by
  apply BitVec.eq_of_getLsbD_eq; intro i hi
  simp only [commandWord, nField, BitVec.getLsbD_or, BitVec.getLsbD_shiftLeft, BitVec.getLsbD_setWidth,
    BitVec.getLsbD_extractLsb', hi]
  interval_cases i <;> simp

@[simp] theorem cField_commandWord : cField (commandWord d c n o) = c := by
  apply BitVec.eq_of_getLsbD_eq; intro i hi
  simp only [commandWord, cField, BitVec.getLsbD_or, BitVec.getLsbD_shiftLeft, BitVec.getLsbD_setWidth,
    BitVec.getLsbD_extractLsb', hi]
  interval_cases i <;> simp

@[simp] theorem dField_commandWord : dField (commandWord d c n o) = d := by
  apply BitVec.eq_of_getLsbD_eq; intro i hi
  simp only [commandWord, dField, BitVec.getLsbD_or, BitVec.getLsbD_shiftLeft, BitVec.getLsbD_setWidth,
    BitVec.getLsbD_extractLsb', hi]
  interval_cases i <;> simp
end

/-! ### One lemma per legal word, and everything the decoder can answer -/

theorem opField_zero (w : CmdWord) (h : w = 0x0000#16) : opField w = 0#4 := by rw [h]; rfl

theorem decodeCommand_nop (t : Transaction) (h : t.cmd = 0x0000#16) : decodeCommand t = .instr .nop := by
  simp only [decodeCommand, if_pos h]

theorem decodeCommand_init (t : Transaction) (h : opField t.cmd = 0x1#4 ∧ nField t.cmd = 0#4) :
    decodeCommand t = .instr (.init (cField t.cmd) (dField t.cmd) t.data0 t.data1) := by
  have h0 : t.cmd ≠ 0x0000#16 := fun e => by
    have := opField_zero _ e; rw [h.1] at this; exact absurd this (by decide)
  simp only [decodeCommand, if_neg h0, if_pos h]

theorem decodeCommand_write (t : Transaction)
    (h : opField t.cmd = 0x2#4 ∧ cField t.cmd = 0#4 ∧ dField t.cmd = 0#4 ∧ (nField t.cmd).toNat ≤ 8) :
    decodeCommand t = .instr (.write (nField t.cmd) t.data0) := by
  have h0 : t.cmd ≠ 0x0000#16 := fun e => by
    have := opField_zero _ e; rw [h.1] at this; exact absurd this (by decide)
  have h1 : ¬ (opField t.cmd = 0x1#4 ∧ nField t.cmd = 0#4) := fun e => by
    rw [h.1] at e; exact absurd e.1 (by decide)
  simp only [decodeCommand, if_neg h0, if_neg h1, if_pos h]

theorem decodeCommand_finish (t : Transaction) (h : t.cmd = 0x0003#16) : decodeCommand t = .instr .finish := by
  rw [decodeCommand, h]; rfl

theorem decodeCommand_illegal (t : Transaction) (h0 : t.cmd ≠ 0x0000#16)
    (h1 : ¬ (opField t.cmd = 0x1#4 ∧ nField t.cmd = 0#4))
    (h2 : ¬ (opField t.cmd = 0x2#4 ∧ cField t.cmd = 0#4 ∧ dField t.cmd = 0#4 ∧ (nField t.cmd).toNat ≤ 8))
    (h3 : t.cmd ≠ 0x0003#16) : decodeCommand t = .illegal (whyIllegal t.cmd) := by
  simp only [decodeCommand, if_neg h0, if_neg h1, if_neg h2, if_neg h3]

/-- Everything the decoder can answer, each with the condition on the word it answers it under. -/
theorem decodeCommand_cases (t : Transaction) :
    (t.cmd = 0x0000#16 ∧ decodeCommand t = .instr .nop) ∨
    ((opField t.cmd = 0x1#4 ∧ nField t.cmd = 0#4) ∧
      decodeCommand t = .instr (.init (cField t.cmd) (dField t.cmd) t.data0 t.data1)) ∨
    ((opField t.cmd = 0x2#4 ∧ cField t.cmd = 0#4 ∧ dField t.cmd = 0#4 ∧ (nField t.cmd).toNat ≤ 8) ∧
      decodeCommand t = .instr (.write (nField t.cmd) t.data0)) ∨
    (t.cmd = 0x0003#16 ∧ decodeCommand t = .instr .finish) ∨
    (t.cmd ≠ 0x0000#16 ∧ ¬ (opField t.cmd = 0x1#4 ∧ nField t.cmd = 0#4) ∧
      ¬ (opField t.cmd = 0x2#4 ∧ cField t.cmd = 0#4 ∧ dField t.cmd = 0#4 ∧ (nField t.cmd).toNat ≤ 8) ∧
      t.cmd ≠ 0x0003#16 ∧ decodeCommand t = .illegal (whyIllegal t.cmd)) := by
  by_cases h0 : t.cmd = 0x0000#16
  · exact .inl ⟨h0, decodeCommand_nop t h0⟩
  by_cases h1 : opField t.cmd = 0x1#4 ∧ nField t.cmd = 0#4
  · exact .inr (.inl ⟨h1, decodeCommand_init t h1⟩)
  by_cases h2 : opField t.cmd = 0x2#4 ∧ cField t.cmd = 0#4 ∧ dField t.cmd = 0#4 ∧ (nField t.cmd).toNat ≤ 8
  · exact .inr (.inr (.inl ⟨h2, decodeCommand_write t h2⟩))
  by_cases h3 : t.cmd = 0x0003#16
  · exact .inr (.inr (.inr (.inl ⟨h3, decodeCommand_finish t h3⟩)))
  · exact .inr (.inr (.inr (.inr ⟨h0, h1, h2, h3, decodeCommand_illegal t h0 h1 h2 h3⟩)))

end Sys2Proof
end

