-- ==== Sys2Proof/Laws/Exec.lean ====
section
/-! SUPPORT. One spec lemma per meaning and per shared operation of the step: what it answers, by the case it is in. Proofs
cite these and do not unfold exec, accept, runOp or step. -/

namespace Sys2Proof.Machine

/-! ### The commands on the block -/

theorem Block.construct_good (c d : Nibble) (k0 k1 : Word) (b : Block) (hc : c ≠ 0) (hd : d ≠ 0) :
    b.construct c d k0 k1 = ({ b with result := 0 } : Block).freshInstance c d k0 k1 := by
  simp only [Block.construct, if_neg (not_or.mpr ⟨hc, hd⟩)]

theorem Block.construct_bad (c d : Nibble) (k0 k1 : Word) (b : Block) (h : c = 0 ∨ d = 0) :
    b.construct c d k0 k1 = ({ b with result := 0 } : Block).raise .config := by
  simp only [Block.construct, if_pos h]

theorem Block.write_absorbing (n : Nat) (x : Word) (b : Block) (h : b.phase = .absorbing) :
    b.write n x = b.takeBytes (operandBytes n x) := by simp [Block.write, h]

theorem Block.write_refused (n : Nat) (x : Word) (b : Block) (h : b.phase ≠ .absorbing) :
    b.write n x = b.raise .invalidState := by simp [Block.write, h]

theorem Block.finish_absorbing (b : Block) (h : b.phase = .absorbing) :
    b.finish = { b.setLanes b.finalLanes with result := b.finalLanes.digest, phase := .finished } := by
  simp [Block.finish, h]

theorem Block.finish_refused (b : Block) (h : b.phase ≠ .absorbing) : b.finish = b.raise .invalidState := by
  simp [Block.finish, h]

/-! ### exec -/

theorem exec_init (c d : Nibble) (k0 k1 : Word) (s : State) :
    exec (.init c d k0 k1) s = .next (s.setBlock (s.block.construct c d k0 k1)) := rfl

theorem exec_write (n : Nibble) (x : Word) (s : State) (h : n.toNat ≤ 8) :
    exec (.write n x) s = .next (s.setBlock (s.block.write n.toNat x)) := by simp [exec, execWrite, h]

theorem exec_write_over (n : Nibble) (x : Word) (s : State) (h : ¬ n.toNat ≤ 8) :
    exec (.write n x) s = .next (s.setBlock (s.block.raise .badCommand)) := by simp only [exec, execWrite, if_neg h]

theorem exec_finish (s : State) : exec .finish s = .next (s.setBlock s.block.finish) := rfl

theorem exec_rd (a : Nibble) (s : State) : exec (.rd a) s = .next (s.logRead (readReg s.cfg a s.block)) := rfl

/-! ### accept, runOp, step -/

theorem accept_instr (p : PortAccess) (i : Instr) (s : State) (h : decode p = .instr i) : accept p s = exec i s := by
  simp [accept, h]

theorem accept_illegal (p : PortAccess) (why : IllegalWord) (s : State) (h : decode p = .illegal why) :
    accept p s = .next (s.setBlock (s.block.raise .badCommand)) := by
  simp [accept, h]

/-- `accept_instr` for the command port. -/
theorem accept_command (t : Transaction) (i : Instr) (s : State) (h : decodeCommand t = .instr i) :
    accept (.command t) s = exec i s := accept_instr _ _ _ h

/-- `accept_illegal` for the command port. -/
theorem accept_command_illegal (t : Transaction) (why : IllegalWord) (s : State) (h : decodeCommand t = .illegal why) :
    accept (.command t) s = .next (s.setBlock (s.block.raise .badCommand)) := accept_illegal _ _ _ h

theorem step_nil (s : State) (h : s.ops = []) : step s = .next s := by simp [step, h]

theorem step_cons (s : State) (op : HostOp) (rest : List HostOp) (h : s.ops = op :: rest) :
    step s = runOp op (s.setOps rest) := by simp [step, h]

/-- Everything a command can do, by what its word decodes to: the block it leaves, everything else kept. -/
theorem accept_command_cases (t : Transaction) (s : State) : ∃ b, accept (.command t) s = .next (s.setBlock b) ∧
    ((decodeCommand t = .instr .nop ∧ b = s.block) ∨
     (∃ c d k0 k1, decodeCommand t = .instr (.init c d k0 k1) ∧ b = s.block.construct c d k0 k1) ∨
     (∃ n x, decodeCommand t = .instr (.write n x) ∧ n.toNat ≤ 8 ∧ b = s.block.write n.toNat x) ∨
     (decodeCommand t = .instr .finish ∧ b = s.block.finish) ∨
     (∃ why, decodeCommand t = .illegal why ∧ b = s.block.raise .badCommand)) := by
  rcases decodeCommand_cases t with ⟨_, h⟩ | ⟨_, h⟩ | ⟨hn, h⟩ | ⟨_, h⟩ | ⟨_, _, _, _, h⟩
  · exact ⟨s.block, accept_command _ _ _ h, .inl ⟨h, rfl⟩⟩
  · exact ⟨_, accept_command _ _ _ h, .inr (.inl ⟨_, _, _, _, h, rfl⟩)⟩
  · exact ⟨_, (accept_command _ _ _ h).trans (exec_write _ _ _ hn.2.2.2),
      .inr (.inr (.inl ⟨_, _, h, hn.2.2.2, rfl⟩))⟩
  · exact ⟨_, accept_command _ _ _ h, .inr (.inr (.inr (.inl ⟨h, rfl⟩)))⟩
  · exact ⟨_, accept_command_illegal _ _ _ h, .inr (.inr (.inr (.inr ⟨_, h, rfl⟩)))⟩

/-- Everything a step can do: idle, a command, a read or a reset. -/
theorem step_cases (s t : State) (h : step s = .next t) :
    (s.ops = [] ∧ t = s) ∨
    (∃ tx rest b, s.ops = .access (.command tx) :: rest ∧ t = (s.setOps rest).setBlock b ∧
      accept (.command tx) s = .next (s.setBlock b)) ∨
    (∃ a rest, s.ops = .access (.read a) :: rest ∧ t = (s.setOps rest).logRead (readReg s.cfg a s.block)) ∨
    (∃ rest, s.ops = .reset :: rest ∧ t = (s.setOps rest).resetBlock) := by
  cases hs : s.ops with
  | nil =>
    rw [step_nil s hs] at h
    exact .inl ⟨rfl, (Host.Outcome.next.inj h).symm⟩
  | cons op rest =>
    rw [step_cons s op rest hs] at h
    cases op with
    | reset => exact .inr (.inr (.inr ⟨rest, rfl, (Host.Outcome.next.inj h).symm⟩))
    | access p =>
      cases p with
      | read a => exact .inr (.inr (.inl ⟨a, rest, rfl, (Host.Outcome.next.inj h).symm⟩))
      | command tx =>
        obtain ⟨b, hb, hc⟩ := accept_command_cases tx (s.setOps rest)
        obtain ⟨b', hb', hc'⟩ := accept_command_cases tx s
        have hbb : b = b' := by
          simp only [State.setOps_block] at hc
          rcases hc with ⟨h1, r1⟩ | ⟨c, d, k0, k1, h1, r1⟩ | ⟨n, x, h1, hn, r1⟩ | ⟨h1, r1⟩ | ⟨w, h1, r1⟩ <;>
          rcases hc' with ⟨h2, r2⟩ | ⟨c', d', k0', k1', h2, r2⟩ | ⟨n', x', h2, hn', r2⟩ | ⟨h2, r2⟩ | ⟨w', h2, r2⟩ <;>
          simp_all
        subst hbb
        refine .inr (.inl ⟨tx, rest, b, rfl, ?_, hb'⟩)
        rw [runOp, hb] at h
        exact (Host.Outcome.next.inj h).symm

/-! ### Runs -/

/-- A step of any machine, then the rest of its run. -/
theorem coreRun_succ (M : Host.Core) (k : Nat) (s t : M.State) (h : M.step s = .next t) :
    M.run (k + 1) s = M.run k t := by
  simp only [Host.Core.run, h]

@[simp] theorem run_zero (s : State) : run 0 s = .next s := rfl

theorem run_succ (k : Nat) (s t : State) (h : step s = .next t) : run (k + 1) s = run k t :=
  coreRun_succ core k s t h

@[simp] theorem runOps_nil (s : State) : runOps [] s = .next (s.setOps []) := rfl

/-- The first operation of a host program, then the rest. -/
theorem runOps_cons (op : HostOp) (ops : List HostOp) (s t : State) (h : runOp op (s.setOps ops) = .next (t.setOps ops)) :
    runOps (op :: ops) s = runOps ops t := by
  have hs : step (s.setOps (op :: ops)) = .next (t.setOps ops) := by
    rw [step_cons _ op ops rfl]; exact h
  exact run_succ ops.length _ _ hs

/-! ### The host operations that issue an instruction -/

/-- The word of a WRITE of at most 8 bytes decodes to it. -/
theorem decode_writeWord (n : Nibble) (hn : n.toNat ≤ 8) (x y : Word) :
    decodeCommand ⟨commandWord 0 0 n 2, x, y⟩ = .instr (.write n x) := by
  have h := decodeCommand_write ⟨commandWord 0 0 n 2, x, y⟩ ⟨opField_commandWord _ _ _ _, cField_commandWord _ _ _ _,
    dField_commandWord _ _ _ _, (nField_commandWord 0 0 n 2).symm ▸ hn⟩
  simpa only [nField_commandWord] using h

/-- The word of an INIT decodes to it. -/
theorem decode_initWord (c d : Nibble) (k0 k1 : Word) :
    decodeCommand ⟨commandWord d c 0 1, k0, k1⟩ = .instr (.init c d k0 k1) := by
  have h := decodeCommand_init ⟨commandWord d c 0 1, k0, k1⟩ ⟨opField_commandWord _ _ _ _, nField_commandWord _ _ _ _⟩
  simpa only [cField_commandWord, dField_commandWord] using h

/-- Issuing the INIT of a host program runs it. -/
theorem runOp_issue_init (c d : Nibble) (k0 k1 : Word) (s : State) :
    runOp (issue (.init c d k0 k1)) s = exec (.init c d k0 k1) s := accept_instr _ _ _ (decode_initWord c d k0 k1)

/-- Issuing a chunk of at most 8 bytes while absorbing feeds it to the byte loop. -/
theorem runOp_issue_chunk (chunk : List Byte) (h : chunk.length ≤ 8) (s : State) (hp : s.block.phase = .absorbing) :
    runOp (issue (writeChunk chunk)) s = .next (s.setBlock (s.block.takeBytes chunk)) := by
  have hl : (BitVec.ofNat 4 chunk.length).toNat = chunk.length := by
    rw [BitVec.toNat_ofNat]; omega
  have hd := decode_writeWord (BitVec.ofNat 4 chunk.length) (by omega) (le64 chunk) 0
  have he : runOp (issue (writeChunk chunk)) s = exec (writeChunk chunk) s := accept_command _ _ _ hd
  rw [he, writeChunk, exec_write _ _ _ (by omega), Block.write_absorbing _ _ _ hp, hl, operandBytes_le64 _ h]

/-- Issuing FINISH runs it. -/
theorem runOp_issue_finish (s : State) : runOp (issue .finish) s = exec .finish s := rfl

end Sys2Proof.Machine
end

