-- ==== Sys2Proof/Laws/PerInstr.lean ====
section
/-! SUPPORT. Statements made per instruction. Family TableRow: the bits an instruction is encoded in lie in its row of
spec/opcode_table.json and carry the row's fixed bits (30_encoding R52, match and mask). -/

namespace Sys2Proof.Laws.TableRow

/-- The row's width in bits. -/
def width : Instr → Nat
  | .nop => 16
  | .init _ _ _ _ => 16
  | .write _ _ => 16
  | .finish => 16
  | .rd _ => 4

/-- The row's mask. -/
def mask : Instr → Nat
  | .nop => 0xFFFF
  | .init _ _ _ _ => 0x00FF
  | .write _ _ => 0xFF0F
  | .finish => 0xFFFF
  | .rd _ => 0x0

/-- The row's match. -/
def pattern : Instr → Nat
  | .nop => 0x0000
  | .init _ _ _ _ => 0x0001
  | .write _ _ => 0x0002
  | .finish => 0x0003
  | .rd _ => 0x0

/-- The bits of the row: the command word, or the read address. -/
def bits (i : Instr) : Nat :=
  match encode i with
  | .command t => t.cmd.toNat
  | .read a => a.toNat

/-- The encoded bits fit the row and carry its fixed bits. -/
def Statement (i : Instr) : Prop := bits i < 2 ^ width i ∧ bits i &&& mask i = pattern i

theorem nop : Statement .nop := by unfold Statement; decide

/-- The 256 INIT words have the row's fixed bits. -/
theorem init_words : ∀ c d : Nibble,
    (commandWord d c 0 1).toNat < 2 ^ 16 ∧ (commandWord d c 0 1).toNat &&& 0x00FF = 0x0001 := by decide +kernel

theorem init (c d : Nibble) (key0 key1 : Word) : Statement (.init c d key0 key1) := init_words c d

/-- The 16 words of WRITE's row have its fixed bits. -/
theorem write_words : ∀ n : Nibble,
    (commandWord 0 0 n 2).toNat < 2 ^ 16 ∧ (commandWord 0 0 n 2).toNat &&& 0xFF0F = 0x0002 := by decide

theorem write (n : Nibble) (data0 : Word) : Statement (.write n data0) := write_words n

theorem finish : Statement .finish := by unfold Statement; decide

theorem rd (a : Nibble) : Statement (.rd a) := by
  simp only [Statement, bits, encode, width, mask, pattern]
  exact ⟨a.isLt, Nat.and_zero _⟩

end Sys2Proof.Laws.TableRow
end

