-- ==== Sys2Proof/Tests/Slice0.lean ====
section
/-! SUPPORT. The model's own tests. Expected values are the spec's: the encodings of 30_encoding, the worked examples of
40..42 and the tables of 95_test_vectors. The theorems `wit_…` show, for each statement of Obligations.lean that has
hypotheses, a concrete state and operands that meet them. -/

namespace Sys2Proof.Tests

open Sys2Proof Sys2Proof.Machine

/-- The next state, where there is one, as data that can be compared. -/
def answer (o : Host.Outcome State Fault Refusal) : Option State :=
  match o with
  | .next s => some s
  | .fault _ => none
  | .refused _ => none

/-- The block of the next state. -/
def blockAfter (o : Host.Outcome State Fault Refusal) : Option Block := (answer o).map State.block

/-- The test key of 95_test_vectors. -/
def tk0 : Word := 0x0706050403020100#64

/-- Its second word. -/
def tk1 : Word := 0x0f0e0d0c0b0a0908#64

/-- LaneInit of the test key (95 section 2.5). -/
def tkLanes : Lanes where
  v0 := 0x7469686173716475#64
  v1 := 0x6b617f6d656e6665#64
  v2 := 0x6b7f62616d677361#64
  v3 := 0x7b6b696e727e6c7b#64

/-- The lanes after the first block of the test message (95 section 2.6). -/
def tkLanes1 : Lanes where
  v0 := 0x4a017198de0a59e0#64
  v1 := 0x0d52f6f62a4f59a4#64
  v2 := 0x634cb3577b01fd3d#64
  v3 := 0xa5224d6f55c7d9c8#64

/-- The lanes after the last step of F2 (95 section 2.7). -/
def tkFinal : Lanes where
  v0 := 0xf6bcd53893fecff1#64
  v1 := 0x54b9964c7ea0d937#64
  v2 := 0x1b38329c099bb55a#64
  v3 := 0x1814bb89ad7be679#64

/-- A block of schedule 2-4 in a phase, with these lanes and pending bytes. -/
def blockOf (phase : Phase) (lanes : Lanes) (buf : Word) (plen : BitVec 3) (len : Word) : Block :=
  { Block.reset with lanes := lanes, buf := buf, plen := plen, len := len, phase := phase }

/-- An ABSORBING block with these lanes and pending bytes. -/
def absorbing (lanes : Lanes) (buf : Word) (plen : BitVec 3) (len : Word) : Block :=
  blockOf .absorbing lanes buf plen len

/-- The reset state with another block. -/
def stateOf (b : Block) : State := State.reset.setBlock b

/-- A block after row W3 or W7 of 95 section 2.8: seven bytes pending. -/
def afterW3 : Block := absorbing tkLanes 0x0006050403020100#64 7 7

/-- The block after row W9: FINISHED. -/
def afterW9 : Block :=
  { blockOf .finished tkFinal 0x000e0d0c0b0a0908#64 7 15 with result := 0xa129ca6149be45e5#64 }

/-- A FAULTED block. -/
def faulted : Block := { afterW3 with phase := .faulted, err := .badCommand }

/-- A transaction whose operands are 0. -/
def tx (cmd : CmdWord) : Transaction := { cmd := cmd, data0 := 0, data1 := 0 }

/-- A state in which the host has one operation left. -/
def withOp (op : HostOp) (b : Block) : State := (stateOf b).setOps [op]

/-! ### Well-formedness and decoding -/

/-- The one check: WRITE with N = 9 is refused, N = 8 passes (R51, R53). -/
theorem test_wellFormed_write_count :
    (Instr.write 9 0).wellFormed = false ∧ (Instr.write 15 0).wellFormed = false ∧
    (Instr.write 8 0).wellFormed = true ∧ (Instr.init 0 0 0 0).wellFormed = true := by decide

/-- `OOOO` = 0000 with every other field 0 (R49, R51). -/
theorem test_decode_nop : decodeTableWord 16 0b0000_0000_0000_0000 = some .nop := by decide

/-- D = 3, C = 1, N = 0, OP = 1; DATA0 and DATA1 are the key words (R49, R50; P3's 0x3101). -/
theorem test_decode_init :
    decode (.command { cmd := 0b0011_0001_0000_0001#16, data0 := tk0, data1 := tk1 }) =
      .instr (.init 1 3 tk0 tk1) := by decide

/-- D = 0, C = 0, N = 8, OP = 2 (R49, R51; W5's 0x0082). -/
theorem test_decode_write :
    decode (.command { cmd := 0b0000_0000_1000_0010#16, data0 := tk1, data1 := 7 }) = .instr (.write 8 tk1) := by decide

/-- OP = 3 with every other field 0 (R49, R51). -/
theorem test_decode_finish : decodeTableWord 16 0b0000_0000_0000_0011 = some .finish := by decide

/-- rd_addr 1110: LEN (R56, R80). -/
theorem test_decode_rd : decodeTableWord 8 0b1110 = some (.rd 0xE) ∧ decodeTableWord 4 0b0001 = some (.rd 1) := by decide

/-- The ILLEGAL words of 95 section 2.12 and the words beside the legal ones (R53). -/
theorem test_decode_illegal :
    decodeTableWord 16 0x0092 = none ∧ decodeTableWord 16 0x0004 = none ∧ decodeTableWord 16 0x4011 = none ∧
    decodeTableWord 16 0x0013 = none ∧ decodeTableWord 16 0x0010 = none ∧ decodeTableWord 16 0x1003 = none ∧
    decodeTableWord 16 0x0102 = none ∧ decodeTableWord 16 0xFFFF = none := by decide

/-- A table word runs as the next step after reset (0x4201, then the table's I1 row). -/
theorem test_fetch_word :
    blockAfter (step (State.reset.withFetchWord 16 0x4201)) =
      some { Block.reset with lanes := laneInit 0 0, phase := .absorbing } := by decide

/-! ### One step of each instruction -/

/-- NOP leaves a FINISHED block and its ERR (95 section 2.8, NOP rows). -/
theorem test_nop_keeps_err :
    answer (exec .nop (stateOf { afterW9 with err := .invalidState })) =
      some (stateOf { afterW9 with err := .invalidState }) := by decide

/-- Row I1, but from ABSORBING with pending bytes (row I6): the instance is discarded. -/
theorem test_init_discards :
    blockAfter (exec (.init 2 4 tk0 tk1) (stateOf afterW3)) = some (absorbing tkLanes 0 0 0) := by decide

/-- Row I5: INIT 0, 0 in FINISHED clears RESULT, keeps the lanes, raises CONFIG. -/
theorem test_init_config :
    blockAfter (exec (.init 0 0 tk0 tk1) (stateOf afterW9)) =
      some { afterW9 with result := 0, phase := .unkeyed, err := .config } := by decide

/-- Row W8: PLEN 7 and 8 bytes, seven of which are carried. -/
theorem test_write_carry :
    blockAfter (exec (.write 8 0x0e0d0c0b0a090807#64) (stateOf afterW3)) =
      some (absorbing tkLanes1 0x000e0d0c0b0a0908#64 7 15) := by decide +kernel

/-- Row W3: the bytes of DATA0 above N are ignored; and LEN wraps (R71, corner cases). -/
theorem test_write_ignores_upper_bytes :
    blockAfter (exec (.write 4 0xffffffff06050403#64) (stateOf (absorbing tkLanes 0x020100#64 3 3))) = some afterW3 ∧
    (blockAfter (exec (.write 1 0) (stateOf (absorbing tkLanes 0 7 0xFFFFFFFFFFFFFFFF#64)))).map Block.len = some 0 := by
  decide +kernel

/-- Row W9. -/
theorem test_finish_latches :
    blockAfter (exec .finish (stateOf (absorbing tkLanes1 0x000e0d0c0b0a0908#64 7 15))) = some afterW9 := by
  decide +kernel

/-- Row E5: FINISH in FAULTED raises INVALID_STATE and nothing else. -/
theorem test_finish_faulted :
    blockAfter (exec .finish (stateOf faulted)) = some { faulted with err := .invalidState } := by decide

/-- Section 2.11, after W3: PBUF with and without raw access. -/
theorem test_rd_pbuf :
    (answer (exec (.rd 0xC) (stateOf afterW3))).map State.reads = some [0] ∧
    (answer (exec (.rd 0xC) ((State.resetOf { rawStateAccess := true }).setBlock afterW3))).map State.reads =
      some [0x0006050403020100#64] := by decide

/-- STATUS in each phase but UNKEYED, and with an error: row I1 (ABSORBING), after W9 (FINISHED), row E10 (FAULTED with
BAD_COMMAND), row E6 with schedule 2-4 (INVALID_STATE). -/
theorem test_rd_status :
    [absorbing tkLanes 0 0 0, afterW9, faulted, { afterW9 with err := .invalidState }].map
        (fun b => (answer (exec (.rd 0) (stateOf b))).map State.reads) =
      [some [0x4201#64], some [0x4206#64], some [0x4233#64], some [0x4226#64]] := by decide

/-! ### The datapath and the reference function -/

/-- Unit vectors of 95 section 2.4: they pin the order of the 14 steps. -/
theorem test_sipRound_units :
    sipRound { v0 := 0, v1 := 1, v2 := 0, v3 := 0 } =
      { v0 := 0x0000000100000000#64, v1 := 0x0000000040022001#64
        v2 := 0x0000200100000000#64, v3 := 0x0000000100000000#64 } ∧
    sipRound { v0 := 0, v1 := 0, v2 := 0, v3 := 0x8000000000000000#64 } =
      { v0 := 0x8000000000008000#64, v1 := 0x8000000000000000#64
        v2 := 0x0000000080000000#64, v3 := 0x8000001000108000#64 } := by decide

/-- 95 section 2.9: n = 7, 8, 63 of the 64 published vectors, and the length-byte corners 255 and 256. -/
theorem test_reference_vectors :
    ([7, 8, 63, 255, 256].map fun n => sipHash 2 4 tk0 tk1 ((List.range n).map (BitVec.ofNat 8))) =
      [0xab0200f58b01d137#64, 0x93f5f5799a932462#64, 0x958a324ceb064572#64, 0xa9c169fec74db21a#64,
       0x999d0526d2a7bfd7#64] := by decide +kernel

/-! ### Witnesses: the hypotheses of the statements can be met -/

/-- Rotl64MovesEachBit, at both ends of the range of r and of i. -/
theorem wit_rotl64 : ((0 : Nat) < 1 ∧ (1 : Nat) < 64) ∧ ((0 : Nat) < 63 ∧ (63 : Nat) < 64) ∧ (0 : Nat) < 64 := by decide

/-- The phase hypotheses: a state of each phase. -/
theorem wit_phases :
    (stateOf afterW3).block.phase = .absorbing ∧ (stateOf afterW9).block.phase ≠ .absorbing ∧
    (stateOf afterW9).block.phase = .finished ∧ State.reset.block.phase ≠ .absorbing ∧
    State.reset.block.phase = .unkeyed ∧ (stateOf faulted).block.phase = .faulted ∧
    (stateOf faulted).block.phase ≠ .absorbing := by decide

/-- FinalizeAbsorbsThenMarksThenRounds, FinishLatchesTheHash, ResultStaysReadable: FINISH in ABSORBING, and elsewhere. -/
theorem wit_finish :
    (stateOf (absorbing tkLanes1 0 0 8)).block.phase = .absorbing ∧ State.reset.block.phase ≠ .absorbing := by decide

/-- Words that decode to each instruction: DecoderTakesExactly267Words, ErrorPriority, PhaseTransitionTable,
TheBlockNeverStops, NopLeavesEveryState, InitStartsAFreshInstance, EncodeOfDecodeIsTheWord. INIT at the least and the
greatest schedule and at C = 0 and D = 0; WRITE at 0 and 8. -/
theorem wit_decodes :
    decodeCommand (tx 0x0000#16) = .instr .nop ∧
    decodeCommand (tx 0x1101#16) = .instr (.init 1 1 0 0) ∧ decodeCommand (tx 0xFF01#16) = .instr (.init 15 15 0 0) ∧
    decodeCommand (tx 0x4001#16) = .instr (.init 0 4 0 0) ∧ decodeCommand (tx 0x0401#16) = .instr (.init 4 0 0 0) ∧
    decodeCommand (tx 0x0002#16) = .instr (.write 0 0) ∧ decodeCommand (tx 0x0082#16) = .instr (.write 8 0) ∧
    decodeCommand (tx 0x0003#16) = .instr .finish ∧ decode (.read 0xF) = .instr (.rd 0xF) := by decide

/-- A word for each reason of ILLEGAL: IllegalWordsRaiseBadCommand, RaiseWritesErrAndPhaseOnly, ErrorPriority,
PhaseTransitionTable, TheBlockNeverStops, StepRunsTheDecodedInstruction. -/
theorem wit_illegal :
    decodeCommand (tx 0x0004#16) = .illegal (.reservedOpcode 4) ∧
    decodeCommand (tx 0xFFFF#16) = .illegal (.reservedOpcode 15) ∧
    decodeCommand (tx 0x0010#16) = .illegal .nopFields ∧ decodeCommand (tx 0x4011#16) = .illegal .initCount ∧
    decodeCommand (tx 0x0102#16) = .illegal .writeFields ∧ decodeCommand (tx 0x0092#16) = .illegal .writeCount ∧
    decodeCommand (tx 0x0013#16) = .illegal .finishFields := by decide

/-- DecodeOfEncodeIsTheInstruction: a well-formed instruction of each constructor. -/
theorem wit_wellFormed :
    Instr.WellFormed .nop ∧ (Instr.init 0 15 tk0 tk1).WellFormed ∧ (Instr.write 8 tk0).WellFormed ∧
    Instr.WellFormed .finish ∧ (Instr.rd 15).WellFormed := by decide

/-- IgnoredOperandBitsNeverMatter: an INIT with its operands, a byte below n, and two WRITE 4 transactions that agree on
bytes 0..3 of DATA0 alone. -/
theorem wit_ignoredOperandBits :
    decodeCommand { cmd := 0x4201#16, data0 := tk0, data1 := tk1 } = .instr (.init 2 4 tk0 tk1) ∧
    (7 : Nat) < 8 ∧
    (let t : Transaction := { cmd := 0x0042#16, data0 := 0xffffffff06050403#64, data1 := 1 }
     let u : Transaction := { cmd := 0x0042#16, data0 := 0x0000000006050403#64, data1 := 2 }
     t.cmd = u.cmd ∧ opField t.cmd ≠ 1 ∧ t.data0 ≠ u.data0 ∧
     ∀ k < 4, t.data0.extractLsb' (8 * k) 8 = u.data0.extractLsb' (8 * k) 8) := by decide

/-- The same two transactions meet the two hypotheses of IgnoredOperandBitsNeverMatter as they stand. -/
theorem wit_ignoredOperandBits_hyps :
    let t : Transaction := { cmd := 0x0042#16, data0 := 0xffffffff06050403#64, data1 := 1 }
    let u : Transaction := { cmd := 0x0042#16, data0 := 0x0000000006050403#64, data1 := 2 }
    (∀ c d k0 k1, decodeCommand t = .instr (.init c d k0 k1) → t.data0 = u.data0 ∧ t.data1 = u.data1) ∧
    (∀ n x, decodeCommand t = .instr (.write n x) →
      ∀ k < n.toNat, t.data0.extractLsb' (8 * k) 8 = u.data0.extractLsb' (8 * k) 8) := by
  have e : decodeCommand { cmd := 0x0042#16, data0 := 0xffffffff06050403#64, data1 := 1 } =
      .instr (.write 4 0xffffffff06050403#64) := by decide
  refine ⟨fun c d k0 k1 h => ?_, fun n x h => ?_⟩
  · rw [e] at h; cases h
  · rw [e] at h; cases h; decide

/-- InitStartsAFreshInstance and RaiseWritesErrAndPhaseOnly: schedules on both sides of the check. -/
theorem wit_schedules :
    ((1 : Nibble) ≠ 0 ∧ (15 : Nibble) ≠ 0) ∧ ((0 : Nibble) = 0 ∨ (15 : Nibble) = 0) ∧
    ((1 : Nibble) = 0 ∨ (0 : Nibble) = 0) := by decide

/-- WriteTakesBytesInOrder: counts 0, 8 and 9, in ABSORBING and in FINISHED. -/
theorem wit_write :
    (0 : Nibble).toNat ≤ 8 ∧ (8 : Nibble).toNat ≤ 8 ∧ 8 < (9 : Nibble).toNat ∧
    (stateOf afterW3).block.phase = .absorbing ∧ (stateOf afterW9).block.phase ≠ .absorbing := by decide

/-- WriteClosedForm: a clean ABSORBING block with p + n = 7, then 8, then the greatest, 15; byte lanes on both sides of p,
and the last carried byte. -/
theorem wit_writeClosedForm :
    (absorbing tkLanes 0x020100#64 3 3).phase = .absorbing ∧ (absorbing tkLanes 0x020100#64 3 3).BufClean ∧
    (absorbing tkLanes 0x020100#64 3 3).plen.toNat + (4 : Nibble).toNat < 8 ∧
    8 ≤ (absorbing tkLanes 0x020100#64 3 3).plen.toNat + (5 : Nibble).toNat ∧
    afterW3.phase = .absorbing ∧ afterW3.BufClean ∧ 8 ≤ afterW3.plen.toNat + (8 : Nibble).toNat ∧
    (8 : Nibble).toNat ≤ 8 ∧ (0 : Nat) < 8 ∧ (7 : Nat) < 8 ∧ 6 < afterW3.plen.toNat + (8 : Nibble).toNat - 8 := by decide

/-- WriteBoundaryCases: each corner case in a clean ABSORBING block. -/
theorem wit_writeBoundary :
    ((absorbing tkLanes 0 0 0).phase = .absorbing ∧ (absorbing tkLanes 0 0 0).BufClean ∧
      (absorbing tkLanes 0 0 0).plen = 0) ∧
    (afterW3.phase = .absorbing ∧ afterW3.BufClean ∧ afterW3.plen = 7) ∧
    (let b := absorbing tkLanes 0x0006050403020100#64 7 0xFFFFFFFFFFFFFFFF#64
     b.phase = .absorbing ∧ b.BufClean ∧ b.len = 0xFFFFFFFFFFFFFFFF#64) := by decide

/-- FinalBlockLayout: the four corner cases, and the byte ranges at their ends. -/
theorem wit_finalBlock :
    ((absorbing tkLanes 0 0 0).BufClean ∧ (absorbing tkLanes 0 0 0).plen = 0 ∧ (absorbing tkLanes 0 0 0).len = 0) ∧
    ((absorbing tkLanes1 0 0 8).BufClean ∧ (absorbing tkLanes1 0 0 8).plen = 0 ∧ (absorbing tkLanes1 0 0 8).len = 8) ∧
    ((absorbing tkLanes 1 7 255).BufClean ∧ (absorbing tkLanes 1 7 255).plen = 7 ∧
      (absorbing tkLanes 1 7 255).len = 255 ∧ 6 < (absorbing tkLanes 1 7 255).plen.toNat) ∧
    ((absorbing tkLanes 0 0 256).BufClean ∧ (absorbing tkLanes 0 0 256).plen = 0 ∧
      (absorbing tkLanes 0 0 256).len = 256 ∧ (absorbing tkLanes 0 0 256).plen.toNat ≤ 0 ∧ (6 : Nat) < 7) := by decide

/-- TwoWritesAreOneOfTheConcatenation: 3 + 5 bytes across a block boundary. -/
theorem wit_twoWrites :
    (stateOf afterW3).block.phase = .absorbing ∧ (3 : Nibble).toNat + (5 : Nibble).toNat ≤ 8 := by decide

/-- StreamingEquivalence and PendingBytesAreTheStreamTail: a split with an empty chunk and a full one. -/
theorem wit_streaming :
    (1 : Nibble) ≠ 0 ∧ (3 : Nibble) ≠ 0 ∧
    ∀ chunk ∈ [[], [1, 2, 3], [4, 5, 6, 7, 8, 9, 10, 11], ([] : List Byte)], chunk.length ≤ 8 := by decide

/-- PseudoInstructionsExpand: a key, WRITEB of 8 bytes, WRITES with a head of 8 and a rest of 1. -/
theorem wit_pseudo :
    (List.replicate 8 (1 : Byte)).length = 8 ∧ (List.replicate 8 (2 : Byte)).length = 8 ∧
    (List.replicate 8 (1 : Byte)).length ≤ 8 ∧ [(1 : Byte)] ≠ [] ∧ [(1 : Byte)].length < 8 := by decide

/-- RdReturnsTheRegister and RawGateHidesLanesBufferAndCounter: both builds, the ends of the gated and of the reserved
addresses, and two blocks that differ in lanes, buffer and counter alone. -/
theorem wit_readPort :
    ({ rawStateAccess := true } : Config).rawStateAccess = true ∧ Config.default.rawStateAccess = false ∧
    (0x8 ≤ (0x8 : Nibble).toNat ∧ (0x8 : Nibble).toNat ≤ 0xE) ∧ (0x8 ≤ (0xE : Nibble).toNat ∧ (0xE : Nibble).toNat ≤ 0xE) ∧
    (2 ≤ (2 : Nibble).toNat ∧ (2 : Nibble).toNat ≤ 7) ∧ (2 ≤ (7 : Nibble).toNat ∧ (7 : Nibble).toNat ≤ 7) ∧
    (0xF : Nibble).toNat = 0xF ∧
    (let c := absorbing tkLanes1 0 0 8
     afterW3.phase = c.phase ∧ afterW3.err = c.err ∧ afterW3.cr = c.cr ∧ afterW3.dr = c.dr ∧
     afterW3.result = c.result ∧ afterW3 ≠ c) := by decide

/-- RawGateHidesLanesBufferAndCounter, the step: two states without raw access that differ in what it hides, before a read
and before a FINISH in ABSORBING. -/
theorem wit_sameSeen :
    (∀ op ∈ [HostOp.access (.read 0xC), .access (.command (tx 0x0003#16))],
      (withOp op afterW3).cfg.rawStateAccess = false ∧
      (withOp op afterW3).SameSeen (withOp op (absorbing tkLanes1 0 0 8)) ∧
      withOp op afterW3 ≠ withOp op (absorbing tkLanes1 0 0 8)) := by
  intro op hop
  simp only [List.mem_cons, List.not_mem_nil, or_false] at hop
  rcases hop with rfl | rfl <;> decide

/-- ResultStaysReadable: a block with the invariants and no result, and a step from FINISHED. -/
theorem wit_resultReadable :
    afterW3.Inv ∧ afterW3.resultValid = false ∧ (stateOf afterW9).block.phase = .finished ∧
    answer (step (withOp (.access (.read 1)) afterW9)) =
      some ((stateOf afterW9).setBlock afterW9 |>.logRead 0xa129ca6149be45e5#64) := by decide

/-- RaiseWritesErrAndPhaseOnly: WRITE and FINISH outside ABSORBING. -/
theorem wit_raise :
    (∃ n x, (Instr.write 8 0) = .write n x ∧ n.toNat ≤ 8) ∧ State.reset.block.phase ≠ .absorbing :=
  ⟨⟨8, 0, rfl, by decide⟩, by decide⟩

/-- Pins that hold reset while a command is offered. -/
def pinsRst : Pins := { rst := true, cmdValid := true, tx := tx 0x0003#16, rdAddr := 0 }

/-- Pins that offer FINISH. -/
def pinsFinish : Pins := { pinsRst with rst := false }

/-- Pins with no command. -/
def pinsIdle : Pins := { pinsFinish with cmdValid := false }

/-- ErrorPriority and ResetGivesTheResetState: an edge with rst = 1. -/
theorem wit_reset_edge : pinsRst.rst = true := by decide

/-- ResetGivesTheResetState: a state whose next operation is a reset. -/
theorem wit_reset_op : (withOp .reset afterW9).ops = .reset :: [] := by decide

/-- OnlyInitOrResetClearsErr, OnlyInitEntersAbsorbing, ScheduleIsFixedPerInstance, OnlyTheDatapathWritesLanes and
ResultIsWrittenByFinishAndCleared: one step, an INIT 1, 3 from FINISHED with ERR set, meets the hypotheses of all five. -/
theorem wit_init_step :
    let s := withOp (.access (.command (tx 0x3101#16))) { afterW9 with err := .invalidState }
    ∃ t, step s = .next t ∧ t.block.err = .none ∧ s.block.err ≠ .none ∧
      t.block.phase = .absorbing ∧ s.block.phase ≠ .absorbing ∧ t.block.cr ≠ s.block.cr ∧ t.block.dr ≠ s.block.dr ∧
      t.block.lanes ≠ s.block.lanes ∧ t.block.result ≠ s.block.result := by
  exact ⟨_, rfl, by decide⟩

/-- OnlyTheDatapathWritesLanes: the WRITE of row W4 and a FINISH change the lanes. -/
theorem wit_lanes_step :
    (blockAfter (step (withOp (.access (.command { cmd := 0x0012#16, data0 := 7, data1 := 0 })) afterW3))).map
        Block.lanes = some tkLanes1 ∧ tkLanes1 ≠ (withOp .reset afterW3).block.lanes := by decide +kernel

/-- ResultIsWrittenByFinishAndCleared: FINISH in ABSORBING changes RESULT. -/
theorem wit_result_step :
    (blockAfter (step (withOp (.access (.command (tx 0x0003#16))) (absorbing tkLanes1 0x000e0d0c0b0a0908#64 7 15)))).map
        Block.result = some 0xa129ca6149be45e5#64 := by decide +kernel

/-- UnkeyedUntilASuccessfulInit: a FINISH from reset. -/
theorem wit_unkeyed :
    let s := withOp (.access (.command (tx 0x0003#16))) Block.reset
    s.block.phase = .unkeyed ∧ (∀ op ∈ s.ops, ¬IsGoodInit op) ∧ ∃ t, run 1 s = .next t := by
  refine ⟨rfl, ?_, _, rfl⟩
  intro op hop h
  obtain ⟨t, c, d, rfl, hd, -, -⟩ := h
  simp only [withOp, State.setOps, List.mem_singleton] at hop
  cases hop
  rw [show decodeCommand (tx 0x0003#16) = .instr .finish from by decide] at hd
  cases hd

/-- InstructionFrames, StepKeepsTheBuildAndTakesOneOperation, TheBlockNeverStops: exec and step answer a next state. -/
theorem wit_frames :
    (∃ t, exec .nop State.reset = .next t) ∧ (∃ t, exec (.init 1 0 tk0 tk1) State.reset = .next t) ∧
    (∃ t, exec (.write 8 tk0) (stateOf afterW3) = .next t) ∧ (∃ t, exec (.write 9 tk0) State.reset = .next t) ∧
    (∃ t, exec .finish (stateOf afterW3) = .next t) ∧ (∃ t, exec (.rd 0xD) State.reset = .next t) ∧
    (∃ t, step (withOp (.access (.read 0)) afterW3) = .next t) ∧ (∃ t, step State.reset = .next t) :=
  ⟨⟨_, rfl⟩, ⟨_, rfl⟩, ⟨_, rfl⟩, ⟨_, rfl⟩, ⟨_, rfl⟩, ⟨_, rfl⟩, ⟨_, rfl⟩, ⟨_, rfl⟩⟩

/-- InstructionFrames, clause by clause: a count of 8 and one above, a WRITE that completes no block, the three phases
hypotheses, and a CONFIG schedule. -/
theorem wit_frames_clauses :
    (8 : Nibble).toNat ≤ 8 ∧ 8 < (9 : Nibble).toNat ∧ afterW3.phase = .absorbing ∧ afterW9.phase ≠ .absorbing ∧
    afterW3.plen.toNat + (0 : Nibble).toNat < 8 ∧ ((0 : Nibble) = 0 ∨ (4 : Nibble) = 0) := by decide

/-- EveryStepKeepsTheInvariants: blocks of three phases with the invariants, one of them about to complete a block. -/
theorem wit_inv : afterW3.Inv ∧ afterW9.Inv ∧ faulted.Inv ∧ Block.reset.Inv := by decide

/-- StepRunsTheDecodedInstruction: an access that decodes, one that does not, no operation, and a table word. -/
theorem wit_step :
    (withOp (.access (.command (tx 0x0003#16))) afterW3).ops = .access (.command (tx 0x0003#16)) :: [] ∧
    decode (.command (tx 0x0003#16)) = .instr .finish ∧ decode (.command (tx 0x0092#16)) = .illegal .writeCount ∧
    State.reset.ops = [] ∧ decodeTableWord 16 0x0072 = some (.write 7 0) := by decide

/-- The meter on row W4 and on a FINISH of schedule 2-4: 2 rounds and 1 byte, 6 rounds and no byte (R110). -/
theorem test_meter :
    ((Metered.start afterW3).exec (.write 1 7)).sipRounds = 2 ∧ ((Metered.start afterW3).exec (.write 1 7)).byteSteps = 1 ∧
    ((Metered.start afterW3).exec .finish).sipRounds = 6 ∧ ((Metered.start afterW3).exec .finish).byteSteps = 0 := by
  decide +kernel

/-- RoundCountsAreBounded: a stream of 8 and 7 bytes from an aligned ABSORBING block. -/
theorem wit_roundCounts :
    (stateOf (absorbing tkLanes 0 0 0)).block.phase = .absorbing ∧ (stateOf (absorbing tkLanes 0 0 0)).block.plen = 0 ∧
    ∀ x ∈ [((8 : Nibble), tk0), (7, tk1)], x.1.toNat ≤ 8 := ⟨rfl, rfl, by simp⟩

/-- AcceptedCommandsCompleteInTime: an idle block takes FINISH; with latency 2 the command is still running after one
further edge and complete after two. -/
theorem wit_latency :
    let m : Clocked := { st := stateOf afterW3, busy := none }
    let latency : Block → Transaction → Nat := fun _ _ => 2
    m.busy = none ∧ m.accepts pinsFinish = true ∧ (∀ q ∈ [pinsIdle, pinsIdle], q.rst = false) ∧
    [pinsIdle].length < latency m.st.block pinsFinish.tx ∧
    [pinsIdle, pinsIdle].length = latency m.st.block pinsFinish.tx := by decide

/-- AcceptedCommandsCompleteInTime at latency 0: complete on the accepting edge. -/
theorem wit_latency_zero :
    let m : Clocked := { st := stateOf afterW3, busy := none }
    ([] : List Pins).length = (fun (_ : Block) (_ : Transaction) => 0) m.st.block pinsFinish.tx ∧
      m.accepts pinsFinish = true ∧ pinsIdle.rst = false := by decide

/-- InstancesShareNoState: two instances, and the index that is stepped beside one that is not. -/
theorem wit_instances :
    ([State.reset, stateOf afterW3] : Instances)[1]? = some (stateOf afterW3) ∧ (0 : Nat) ≠ 1 := by decide

end Sys2Proof.Tests
end

section
/-! Reset (10_state R30, 70_reset R103): the reset operation at the transaction level, an edge with rst = 1 at the clocked
level, and STATUS right after reset. -/

namespace Sys2Proof.Machine

/-! ### The reset operation of a run -/

/-- A waiting reset is the next step, and nothing of the block before it survives. -/
theorem step_reset (s : State) (rest : List HostOp) (h : s.ops = .reset :: rest) :
    step s = .next (s.setOps rest).resetBlock := step_cons s .reset rest h

/-! ### A clock edge with rst = 1 -/

section
variable {p : Pins} (h : p.rst = true) (m : Clocked)
include h

/-- The command in flight, if any, is dropped without being completed. -/
theorem Clocked.edge_of_rst (latency : Block → Transaction → Nat) :
    m.edge latency p = { st := m.st.resetBlock, busy := none } := if_pos h

theorem Clocked.cmdReady_of_rst : m.cmdReady p = false := by simp [Clocked.cmdReady, h]

theorem Clocked.accepts_of_rst : m.accepts p = false := by simp [Clocked.accepts, h]

end

/-! ### STATUS right after reset -/

/-- Reset shows DR = 4 and CR = 2 in STATUS, and RAW_EN as the block was built (R81). -/
theorem statusWord_reset (raw : Bool) :
    statusWord { rawStateAccess := raw } Block.reset = if raw then 0x4208#64 else 0x4200#64 := by
  cases raw <;> decide

/-- Settles O42: a step that takes a reset, and an edge with rst = 1, both run the reset event, whose block depends neither
on the state before it nor on the build. -/
theorem resetGivesTheResetState : Obligations.ResetGivesTheResetState := by
  refine ⟨fun _ => rfl, ?operation, ?edge, statusWord_reset false, statusWord_reset true⟩
  case operation =>
    intro s cfg rest h
    exact step_reset s rest h
  case edge =>
    intro latency p m h
    have hedge := Clocked.edge_of_rst h m latency
    refine ⟨?_, ?_, Clocked.accepts_of_rst h m, Clocked.cmdReady_of_rst h m⟩
    · rw [hedge, State.resetBlock_block]; rfl
    · rw [hedge]

end Sys2Proof.Machine
end

section
/-! The read port (20_memory R42): a read logs its value and touches nothing that a later read looks at. -/

namespace Sys2Proof.Machine

/-- A read is blind to what was read before it: it answers from the block and the build, which `State.logRead` keeps. -/
theorem exec_rd_logRead (a : Nibble) (w : Word) (s : State) :
    exec (.rd a) (s.logRead w) = .next ((s.logRead w).logRead (readReg s.cfg a s.block)) := by
  rw [exec_rd, State.logRead_cfg, State.logRead_block]

/-- Settles O27: the read between and the repeated read are both blind to the log, so they answer from the first state. -/
theorem readsHaveNoSideEffects : Obligations.ReadsHaveNoSideEffects := by
  intro a b s
  let x := readReg s.cfg a s.block
  let y := readReg s.cfg b s.block
  have repeated : exec (.rd a) ((s.logRead x).logRead y) = .next (((s.logRead x).logRead y).logRead x) :=
    exec_rd_logRead a y (s.logRead x)
  have log : ((s.logRead x).logRead y).reads = s.reads ++ [x, y] ∧
      (((s.logRead x).logRead y).logRead x).reads = s.reads ++ [x, y, x] := by simp
  exact ⟨_, _, _, exec_rd a s, exec_rd_logRead b x s, repeated, rfl, rfl, rfl, rfl, rfl, rfl, x, y, rfl, log⟩

end Sys2Proof.Machine
end

section
/-! The command decoder (30_encoding R50, R52, R53). A command word is its four fields, so a match and mask pattern and a
test of the whole word are both tests of fields; what the decoder answers is characterized once, by `Answers`, and the
statements about its words read their condition off it. -/

namespace Sys2Proof

/-! ### A word is its fields -/

theorem cmdWord_eq_iff (w v : CmdWord) :
    w = v ↔ opField w = opField v ∧ nField w = nField v ∧ cField w = cField v ∧ dField w = dField v := by
  refine ⟨fun h => by simp [h], fun ⟨ho, hn, hc, hd⟩ => ?_⟩
  rw [← commandWord_fields w, ← commandWord_fields v, ho, hn, hc, hd]

@[simp] theorem opField_and (w m : CmdWord) : opField (w &&& m) = opField w &&& opField m := BitVec.extractLsb'_and
@[simp] theorem nField_and (w m : CmdWord) : nField (w &&& m) = nField w &&& nField m := BitVec.extractLsb'_and
@[simp] theorem cField_and (w m : CmdWord) : cField (w &&& m) = cField w &&& cField m := BitVec.extractLsb'_and
@[simp] theorem dField_and (w m : CmdWord) : dField (w &&& m) = dField w &&& dField m := BitVec.extractLsb'_and

theorem eq_commandWord_iff (w : CmdWord) (d c n o : Nibble) :
    w = commandWord d c n o ↔ opField w = o ∧ nField w = n ∧ cField w = c ∧ dField w = d := by
  simp [cmdWord_eq_iff]

/-- A pattern whose mask covers whole fields tests those fields. -/
theorem and_commandWord_eq_iff (w : CmdWord) (md mc mn mo d c n o : Nibble) :
    w &&& commandWord md mc mn mo = commandWord d c n o ↔
      opField w &&& mo = o ∧ nField w &&& mn = n ∧ cField w &&& mc = c ∧ dField w &&& md = d := by
  simp [cmdWord_eq_iff]

theorem nibble_and_allOnes (x : Nibble) : x &&& 15#4 = x := BitVec.and_allOnes

/-! ### Match and mask patterns -/

/-- INIT's opcode with N = 0. -/
abbrev IsInitWord (w : CmdWord) : Prop := opField w = 0x1#4 ∧ nField w = 0#4

/-- WRITE's opcode with C = D = 0 and N at most 8. -/
abbrev IsWriteWord (w : CmdWord) : Prop :=
  opField w = 0x2#4 ∧ cField w = 0#4 ∧ dField w = 0#4 ∧ (nField w).toNat ≤ 8

theorem fullMask_iff (w v : CmdWord) : w &&& 0xFFFF#16 = v ↔ w = v := by
  rw [show w &&& 0xFFFF#16 = w from BitVec.and_allOnes]

theorem initMask_iff (w : CmdWord) : w &&& 0x00FF#16 = 0x0001#16 ↔ IsInitWord w := by
  have mask : 0x00FF#16 = commandWord 0 0 15 15 := by decide
  have pattern : 0x0001#16 = commandWord 0 0 0 1 := by decide
  rw [mask, pattern, and_commandWord_eq_iff]
  simp [nibble_and_allOnes]

theorem writeMask_iff (w : CmdWord) :
    w &&& 0xFF0F#16 = 0x0002#16 ↔ opField w = 0x2#4 ∧ cField w = 0#4 ∧ dField w = 0#4 := by
  have mask : 0xFF0F#16 = commandWord 15 15 0 15 := by decide
  have pattern : 0x0002#16 = commandWord 0 0 0 2 := by decide
  rw [mask, pattern, and_commandWord_eq_iff]
  simp [nibble_and_allOnes]

theorem nopWord_iff (w : CmdWord) :
    w = 0x0000#16 ↔ opField w = 0#4 ∧ nField w = 0#4 ∧ cField w = 0#4 ∧ dField w = 0#4 :=
  eq_commandWord_iff w 0 0 0 0

theorem finishWord_iff (w : CmdWord) :
    w = 0x0003#16 ↔ opField w = 3#4 ∧ nField w = 0#4 ∧ cField w = 0#4 ∧ dField w = 0#4 :=
  eq_commandWord_iff w 0 0 0 3

/-! ### What the decoder answers -/

/-- The word is one of the 267 that name a command. -/
abbrev IsLegalWord (w : CmdWord) : Prop := w = 0x0000#16 ∨ IsInitWord w ∨ IsWriteWord w ∨ w = 0x0003#16

theorem not_isLegalWord (w : CmdWord) :
    ¬ IsLegalWord w ↔ w ≠ 0x0000#16 ∧ ¬ IsInitWord w ∧ ¬ IsWriteWord w ∧ w ≠ 0x0003#16 := by
  simp only [IsLegalWord, not_or, ne_eq]

/-- The condition on a transaction under which the decoder gives an answer (R52). -/
def Answers (t : Transaction) : Decoded → Prop
  | .instr .nop => t.cmd = 0x0000#16
  | .instr (.init c d k0 k1) =>
    IsInitWord t.cmd ∧ c = cField t.cmd ∧ d = dField t.cmd ∧ k0 = t.data0 ∧ k1 = t.data1
  | .instr (.write n x) => IsWriteWord t.cmd ∧ n = nField t.cmd ∧ x = t.data0
  | .instr .finish => t.cmd = 0x0003#16
  | .instr (.rd _) => False
  | .illegal why => ¬ IsLegalWord t.cmd ∧ why = whyIllegal t.cmd

theorem answers_decodeCommand (t : Transaction) : Answers t (decodeCommand t) := by
  rcases decodeCommand_cases t with ⟨hw, h⟩ | ⟨hw, h⟩ | ⟨hw, h⟩ | ⟨hw, h⟩ | ⟨h0, h1, h2, h3, h⟩ <;> rw [h]
  · exact hw
  · exact ⟨hw, rfl, rfl, rfl, rfl⟩
  · exact ⟨hw, rfl, rfl⟩
  · exact hw
  · exact ⟨(not_isLegalWord t.cmd).2 ⟨h0, h1, h2, h3⟩, rfl⟩

/-- The decoder's answer is the one whose condition the transaction meets. -/
theorem decodeCommand_eq_iff (t : Transaction) (r : Decoded) : decodeCommand t = r ↔ Answers t r := by
  refine ⟨fun h => h ▸ answers_decodeCommand t, fun h => ?_⟩
  match r, h with
  | .instr .nop, h => exact decodeCommand_nop t h
  | .instr (.init ..), ⟨hw, hc, hd, h0, h1⟩ => rw [hc, hd, h0, h1]; exact decodeCommand_init t hw
  | .instr (.write ..), ⟨hw, hn, hx⟩ => rw [hn, hx]; exact decodeCommand_write t hw
  | .instr .finish, h => exact decodeCommand_finish t h
  | .illegal _, ⟨hw, hwhy⟩ =>
    obtain ⟨h0, h1, h2, h3⟩ := (not_isLegalWord t.cmd).1 hw
    rw [hwhy]
    exact decodeCommand_illegal t h0 h1 h2 h3

section
variable (t : Transaction)

theorem decodeCommand_nop_iff : decodeCommand t = .instr .nop ↔ t.cmd = 0x0000#16 := decodeCommand_eq_iff t _

theorem decodeCommand_finish_iff : decodeCommand t = .instr .finish ↔ t.cmd = 0x0003#16 := decodeCommand_eq_iff t _

theorem decodeCommand_init_iff (c d : Nibble) (k0 k1 : Word) : decodeCommand t = .instr (.init c d k0 k1) ↔
    IsInitWord t.cmd ∧ c = cField t.cmd ∧ d = dField t.cmd ∧ k0 = t.data0 ∧ k1 = t.data1 := decodeCommand_eq_iff t _

theorem decodeCommand_write_iff (n : Nibble) (x : Word) : decodeCommand t = .instr (.write n x) ↔
    IsWriteWord t.cmd ∧ n = nField t.cmd ∧ x = t.data0 := decodeCommand_eq_iff t _

theorem decodeCommand_ne_rd (a : Nibble) : decodeCommand t ≠ .instr (.rd a) := fun h => (decodeCommand_eq_iff t _).1 h

theorem decodeCommand_init_exists_iff :
    (∃ c d k0 k1, decodeCommand t = .instr (.init c d k0 k1)) ↔ IsInitWord t.cmd := by
  simp [decodeCommand_init_iff]

theorem decodeCommand_write_exists_iff : (∃ n x, decodeCommand t = .instr (.write n x)) ↔ IsWriteWord t.cmd := by
  simp [decodeCommand_write_iff]

theorem decodeCommand_illegal_exists_iff : (∃ why, decodeCommand t = .illegal why) ↔ ¬ IsLegalWord t.cmd := by
  simp [decodeCommand_eq_iff, Answers]

end

/-! ### Counting the words -/

/-- The INIT words: one for every C and D. -/
def initWords : Finset CmdWord := Finset.univ.image fun p : Nibble × Nibble => commandWord p.2 p.1 0 1

/-- The WRITE words: one for every N at most 8. -/
def writeWords : Finset CmdWord := (Finset.univ.filter fun n : Nibble => n.toNat ≤ 8).image fun n => commandWord 0 0 n 2

/-- The 267 words that decode to a command. -/
def legalWords : Finset CmdWord := {0x0000#16, 0x0003#16} ∪ (initWords ∪ writeWords)

theorem mem_initWords (w : CmdWord) : w ∈ initWords ↔ IsInitWord w := by
  simp only [initWords, Finset.mem_image, Finset.mem_univ, true_and, Prod.exists, eq_comm (b := w), eq_commandWord_iff]
  simp

theorem mem_writeWords (w : CmdWord) : w ∈ writeWords ↔ IsWriteWord w := by
  simp only [writeWords, Finset.mem_image, Finset.mem_filter, Finset.mem_univ, true_and, eq_comm (b := w),
    eq_commandWord_iff]
  constructor
  · rintro ⟨n, hn, ho, rfl, hc, hd⟩
    exact ⟨ho, hc, hd, hn⟩
  · rintro ⟨ho, hc, hd, hn⟩
    exact ⟨_, hn, ho, rfl, hc, hd⟩

theorem mem_legalWords (w : CmdWord) : w ∈ legalWords ↔ IsLegalWord w := by
  simp only [legalWords, Finset.mem_union, Finset.mem_insert, Finset.mem_singleton, mem_initWords, mem_writeWords]
  tauto

theorem card_bitVec (n : Nat) : Fintype.card (BitVec n) = 2 ^ n := by
  rw [Fintype.card_congr BitVec.equivFin.toEquiv, Fintype.card_fin]

theorem card_initWords : initWords.card = 256 := by
  have inj : Function.Injective fun p : Nibble × Nibble => commandWord p.2 p.1 0 1 := by
    rintro ⟨c, d⟩ ⟨c', d'⟩ h
    simpa [eq_commandWord_iff] using h
  rw [initWords, Finset.card_image_of_injective _ inj, Finset.card_univ, Fintype.card_prod, card_bitVec]
  rfl

theorem card_writeWords : writeWords.card = 9 := by
  have inj : Function.Injective fun n : Nibble => commandWord 0 0 n 2 := fun n n' h => by
    simpa [eq_commandWord_iff] using h
  rw [writeWords, Finset.card_image_of_injective _ inj]
  decide

theorem card_legalWords : legalWords.card = 267 := by
  have initWrite : Disjoint initWords writeWords := Finset.disjoint_left.2 fun w hi hw => by
    rw [mem_initWords] at hi
    rw [mem_writeWords] at hw
    exact absurd (hi.1.symm.trans hw.1) (by decide)
  have single : Disjoint {0x0000#16, 0x0003#16} (initWords ∪ writeWords) := by
    simp only [Finset.disjoint_insert_left, Finset.disjoint_singleton_left, Finset.mem_union, mem_initWords,
      mem_writeWords]
    decide
  rw [legalWords, Finset.card_union_of_disjoint single, Finset.card_union_of_disjoint initWrite, card_initWords,
    card_writeWords, Finset.card_pair (by decide)]

theorem card_illegalWords : legalWordsᶜ.card = 65269 := by
  rw [Finset.card_compl, card_legalWords, card_bitVec]
  norm_num

/-- Settles O8: each pattern tests the fields that the decoder tests; the INIT and WRITE words are counted as images of
their free fields and the illegal words as the complement of the 267. -/
theorem decoderTakesExactly267Words : Obligations.DecoderTakesExactly267Words := by
  refine ⟨fun t => ?nop, fun t => ?finish, fun t c d k0 k1 => ?init, fun t n x => ?write, decodeCommand_ne_rd,
    initWords.toList, writeWords.toList, legalWordsᶜ.toList, Finset.nodup_toList _, Finset.nodup_toList _,
    Finset.nodup_toList _, ?_, ?_, ?_, ?_, fun t => ⟨?inits, ?writes, ?illegals⟩⟩
  case nop => rw [decodeCommand_nop_iff, fullMask_iff]
  case finish => rw [decodeCommand_finish_iff, fullMask_iff]
  case init => rw [decodeCommand_init_iff, initMask_iff]
  case write =>
    rw [decodeCommand_write_iff, writeMask_iff]
    constructor
    · rintro ⟨⟨ho, hc, hd, hn⟩, rfl, hx⟩
      exact ⟨⟨ho, hc, hd⟩, rfl, hn, hx⟩
    · rintro ⟨⟨ho, hc, hd⟩, rfl, hn, hx⟩
      exact ⟨⟨ho, hc, hd, hn⟩, rfl, hx⟩
  case inits => rw [Finset.mem_toList, mem_initWords, decodeCommand_init_exists_iff]
  case writes => rw [Finset.mem_toList, mem_writeWords, decodeCommand_write_exists_iff]
  case illegals => rw [Finset.mem_toList, Finset.mem_compl, mem_legalWords, decodeCommand_illegal_exists_iff]
  all_goals simp only [Finset.length_toList, card_initWords, card_writeWords, card_illegalWords]

end Sys2Proof
end

section
/-! Illegal command words (30_encoding R53): which they are, field by field, and the one effect they all have. -/

namespace Sys2Proof.Machine

/-- The illegal words as R53 lists them. -/
abbrev IsListedIllegal (w : CmdWord) : Prop :=
  4 ≤ (opField w).toNat ∨
  ((opField w = 0 ∨ opField w = 3) ∧ ¬(nField w = 0 ∧ cField w = 0 ∧ dField w = 0)) ∨
  (opField w = 2 ∧ ¬(cField w = 0 ∧ dField w = 0)) ∨
  (opField w = 1 ∧ nField w ≠ 0) ∨
  (opField w = 2 ∧ 9 ≤ (nField w).toNat)

/-- An opcode is reserved or one of the four commands'. -/
theorem opcode_cases (op : Nibble) : 4 ≤ op.toNat ∨ op = 0 ∨ op = 1 ∨ op = 2 ∨ op = 3 := by
  revert op; decide

theorem not_isLegalWord_iff (w : CmdWord) : ¬ IsLegalWord w ↔ IsListedIllegal w := by
  simp only [IsLegalWord, nopWord_iff, finishWord_iff, IsInitWord, IsWriteWord, IsListedIllegal]
  rcases opcode_cases (opField w) with h | h | h | h | h
  case inl =>
    have ne (k : Nibble) (hk : k.toNat < 4) : opField w ≠ k := fun e => by rw [e] at h; omega
    simp [h, ne 0#4 (by decide), ne 1#4 (by decide), ne 2#4 (by decide), ne 3#4 (by decide)]
  case inr.inr.inr.inl =>
    have split : ¬(cField w = 0 ∧ dField w = 0 ∧ (nField w).toNat ≤ 8) ↔
        ¬(cField w = 0 ∧ dField w = 0) ∨ 9 ≤ (nField w).toNat := by
      rw [← and_assoc, not_and_or, Nat.not_le, Nat.lt_iff_add_one_le]
    simpa [h] using split
  all_goals simp [h]

theorem Block.raise_badCommand (b : Block) : b.raise .badCommand =
    { b with err := .badCommand, phase := if b.phase = .absorbing then .faulted else b.phase } := by
  simp only [Block.raise, Cause.err_badCommand, Cause.phaseAfter_badCommand]

/-- Settles O12: a word of none of the four legal forms is, opcode by opcode, one that R53 lists; what it does is raise
BAD_COMMAND. -/
theorem illegalWordsRaiseBadCommand : Obligations.IllegalWordsRaiseBadCommand := by
  refine ⟨fun t => ?words, fun t why s h => ?effect⟩
  case words => exact (decodeCommand_illegal_exists_iff t).trans (not_isLegalWord_iff t.cmd)
  case effect => rw [accept_command_illegal t why s h, Block.raise_badCommand]; rfl

end Sys2Proof.Machine
end

section
/-! Operands (30_encoding R50): the fields as numbers, and a command as a function of the operand bits it uses. -/

namespace Sys2Proof.Machine

/-! ### Fields as numbers -/

theorem toNat_nField (w : CmdWord) : (nField w).toNat = w.toNat / 16 % 16 := by
  simp [nField, Nat.shiftRight_eq_div_pow]

theorem toNat_cField (w : CmdWord) : (cField w).toNat = w.toNat / 256 % 16 := by
  simp [cField, Nat.shiftRight_eq_div_pow]

/-- D is the word's top field, so nothing is left above it. -/
theorem toNat_dField (w : CmdWord) : (dField w).toNat = w.toNat / 4096 := by
  have h : w.toNat < 65536 := w.isLt
  simp only [dField, BitVec.extractLsb'_toNat, Nat.shiftRight_eq_div_pow]
  omega

/-! ### The operand bits a command uses -/

theorem operandBytes_getElem? (n k : Nat) (x : Word) (h : k < n) : (operandBytes n x)[k]? = some (byteOf x k) := by
  simp [operandBytes, h]

/-- The bytes of a WRITE are DATA0's bytes below N and no others. -/
theorem operandBytes_congr (n : Nat) (x y : Word) (h : ∀ k < n, byteOf x k = byteOf y k) :
    operandBytes n x = operandBytes n y :=
  List.map_congr_left fun k hk => h k (List.mem_range.1 hk)

/-- WRITE sees DATA0 through its N bytes alone. -/
theorem Block.write_congr (n : Nat) (x y : Word) (b : Block) (h : ∀ k < n, byteOf x k = byteOf y k) :
    b.write n x = b.write n y := by
  simp only [Block.write, operandBytes_congr n x y h]

/-- Settles O13: two such transactions decode alike, to an INIT with equal keys or a WRITE with equal bytes, or to an answer
in which no operand stands. -/
theorem ignoredOperandBitsNeverMatter : Obligations.IgnoredOperandBitsNeverMatter := by
  refine ⟨fun w => ⟨toNat_nField w, toNat_cField w, toNat_dField w⟩, fun t c d k0 k1 h => ?keys,
    fun n k x h => operandBytes_getElem? n k x h, fun t u s hcmd hinit hwrite => ?effect⟩
  case keys =>
    obtain ⟨_, _, _, hkeys⟩ := (decodeCommand_init_iff t c d k0 k1).1 h
    exact hkeys
  case effect =>
    rcases decodeCommand_cases t with ⟨hw, h⟩ | ⟨hw, h⟩ | ⟨hw, h⟩ | ⟨hw, h⟩ | ⟨h0, h1, h2, h3, h⟩
    case inl =>
      rw [accept_command t _ s h, accept_command u _ s (decodeCommand_nop u (hcmd ▸ hw))]
    case inr.inl =>
      obtain ⟨hdata0, hdata1⟩ := hinit _ _ _ _ h
      rw [accept_command t _ s h, accept_command u _ s (decodeCommand_init u (hcmd ▸ hw)), hcmd, hdata0, hdata1]
    case inr.inr.inl =>
      have ⟨_, _, _, hn⟩ := hw
      have hbytes := Block.write_congr _ _ _ s.block (hwrite _ _ h)
      rw [accept_command t _ s h, accept_command u _ s (decodeCommand_write u (hcmd ▸ hw)), ← hcmd,
        exec_write _ _ s hn, exec_write _ _ s hn, hbytes]
    case inr.inr.inr.inl =>
      rw [accept_command t _ s h, accept_command u _ s (decodeCommand_finish u (hcmd ▸ hw))]
    case inr.inr.inr.inr =>
      rw [hcmd] at h0 h1 h2 h3
      rw [accept_command_illegal t _ s h, accept_command_illegal u _ s (decodeCommand_illegal u h0 h1 h2 h3)]

end Sys2Proof.Machine
end

section
/-! The assembler's pseudo-instructions (30_encoding R58). WRITES is a recursion on the bytes left, eight at a time: its
pieces are characterized by that recursion and its statements are read off it. -/

namespace Sys2Proof.Machine

/-! ### Cutting a sequence into pieces of 8 -/

@[simp] theorem chunksOf8_nil : chunksOf8 [] = [] := rfl

/-- Eight bytes in front are a piece of their own. -/
theorem chunksOf8_append (head rest : List Byte) (h : head.length = 8) :
    chunksOf8 (head ++ rest) = head :: chunksOf8 rest := by
  have count : ((head ++ rest).length + 7) / 8 = (rest.length + 7) / 8 + 1 := by rw [List.length_append]; omega
  have dropHead (i : Nat) : (head ++ rest).drop (8 * (i + 1)) = rest.drop (8 * i) := by
    rw [Nat.mul_succ, Nat.add_comm, ← List.drop_drop, List.drop_left' h]
  simp only [chunksOf8, count, List.range_succ_eq_map, List.map_cons, List.map_map, Function.comp_def,
    Nat.succ_eq_add_one, dropHead, Nat.mul_zero, List.drop_zero, List.take_left' h]

/-- What remains below eight bytes is the last piece. -/
theorem chunksOf8_of_lt (rest : List Byte) (hne : rest ≠ []) (hlt : rest.length < 8) : chunksOf8 rest = [rest] := by
  have hpos : 0 < rest.length := List.length_pos_iff.2 hne
  have count : (rest.length + 7) / 8 = 1 := by omega
  simp [chunksOf8, count, List.take_of_length_le hlt.le]

/-- The recursion of WRITES: a sequence is empty, one piece shorter than 8, or 8 bytes and a sequence. -/
theorem bytes_induction8 {P : List Byte → Prop} (nil : P [])
    (short : ∀ rest, rest ≠ [] → rest.length < 8 → P rest)
    (piece : ∀ head rest, head.length = 8 → P rest → P (head ++ rest)) (s : List Byte) : P s := by
  by_cases hlt : s.length < 8
  · by_cases hne : s = []
    · exact hne ▸ nil
    · exact short s hne hlt
  · have hhead : (s.take 8).length = 8 := by rw [List.length_take]; omega
    exact List.take_append_drop 8 s ▸ piece _ _ hhead (bytes_induction8 nil short piece (s.drop 8))
termination_by s.length
decreasing_by rw [List.length_drop]; omega

/-- The pieces are of at most 8 bytes and concatenate to the sequence. -/
theorem chunksOf8_pieces (s : List Byte) : (chunksOf8 s).flatten = s ∧ ∀ chunk ∈ chunksOf8 s, chunk.length ≤ 8 := by
  induction s using bytes_induction8 with
  | nil => simp
  | short rest hne hlt => simp [chunksOf8_of_lt rest hne hlt, hlt.le]
  | piece head rest hhead ih =>
    obtain ⟨hflat, hlen⟩ := ih
    rw [chunksOf8_append head rest hhead, List.flatten_cons, hflat]
    exact ⟨rfl, List.forall_mem_cons.2 ⟨hhead.le, hlen⟩⟩

/-- Settles O24: each expansion is its definition's; those of WRITES follow the pieces of `chunksOf8`. -/
theorem pseudoInstructionsExpand : Obligations.PseudoInstructionsExpand := by
  refine ⟨fun _ _ => rfl, fun c d lo hi hlo hhi => ?initK, fun bytes h => ?writeB, rfl,
    fun head rest h => ?piece, fun rest hne hlt => ?remainder, chunksOf8_pieces⟩
  case initK => simp [expand, List.take_left' hlo, List.drop_left' hlo, List.take_of_length_le hhi.le]
  case writeB => exact ⟨BitVec.ofNat 4 bytes.length, by rw [BitVec.toNat_ofNat]; omega, rfl⟩
  case piece => simp [expand, chunksOf8_append head rest h, writeChunk, h]
  case remainder => simp [expand, chunksOf8_of_lt rest hne hlt]

end Sys2Proof.Machine
end

section
/-! The datapath (40_sipstate_datapath R59..R61, R63): addition and exclusive OR, where a rotation takes each bit, and
SipRound with the round that undoes it. -/

namespace Sys2Proof.Machine

/-! ### Addition and exclusive OR -/

theorem add64_eq (a b : Word) : add64 a b = a + b := rfl

theorem xor64_eq (a b : Word) : xor64 a b = a ^^^ b := rfl

/-- Settles O1: it is the addition of 64-bit words, which drops the carry out. -/
theorem add64WrapsModulo2To64 : Obligations.Add64WrapsModulo2To64 := by
  refine ⟨fun a b => ?wraps, fun a => ?zero, by decide, by decide, by decide⟩
  case wraps => rw [add64_eq, BitVec.toNat_add]
  case zero => rw [add64_eq, BitVec.ofNat_eq_ofNat, BitVec.add_zero]

/-- Settles O2: it is the exclusive OR of 64-bit words, which has no carry from one bit to another. -/
theorem xor64ActsBitByBit : Obligations.Xor64ActsBitByBit := by
  refine ⟨fun a b i => ?bits, fun a => ⟨?self, ?zero⟩, by decide⟩
  case bits => rw [xor64_eq, BitVec.getLsbD_xor]
  case self => rw [xor64_eq, BitVec.xor_self]; rfl
  case zero => rw [xor64_eq, BitVec.ofNat_eq_ofNat, BitVec.xor_zero]

/-! ### Rotation -/

theorem toNat_rotl64 (a : Word) (r : Nat) :
    (rotl64 a r).toNat = (a.toNat <<< r ||| a.toNat >>> (64 - r)) % 2 ^ 64 := by
  have fits : (a >>> (64 - r)).toNat % 2 ^ 64 = (a >>> (64 - r)).toNat := Nat.mod_eq_of_lt (BitVec.isLt _)
  rw [rotl64, BitVec.toNat_or, BitVec.toNat_shiftLeft, Nat.or_mod_two_pow, ← BitVec.toNat_ushiftRight, fits]

/-- Bit i comes from r places below it, around the end of the word. -/
theorem getLsbD_rotl64 (a : Word) {r i : Nat} (hr : r < 64) (hi : i < 64) :
    (rotl64 a r).getLsbD i = a.getLsbD ((i + 64 - r) % 64) := by
  rw [rotl64_eq_rotateLeft a r hr, BitVec.getLsbD_rotateLeft_of_le hr]
  by_cases h : i < r
  · have around : (i + 64 - r) % 64 = 64 - r + i := by omega
    simp [h, around]
  · have below : (i + 64 - r) % 64 = i - r := by omega
    simp [h, hi, below]

theorem rotl64_zero (r : Nat) : rotl64 0 r = 0 := by simp [rotl64]

theorem rotl64_allOnes {r : Nat} (hr : r < 64) : rotl64 (BitVec.allOnes 64) r = BitVec.allOnes 64 := by
  apply BitVec.eq_of_getLsbD_eq
  intro i hi
  have hsource : (i + 64 - r) % 64 < 64 := Nat.mod_lt _ (by decide)
  rw [getLsbD_rotl64 _ hr hi, BitVec.getLsbD_allOnes, BitVec.getLsbD_allOnes, decide_eq_true hsource, decide_eq_true hi]

theorem rotl64_append_32 (hi lo : BitVec 32) : rotl64 (hi ++ lo) 32 = lo ++ hi := by
  apply BitVec.eq_of_getLsbD_eq
  intro i h
  rw [getLsbD_rotl64 _ (by decide) h, BitVec.getLsbD_append, BitVec.getLsbD_append]
  by_cases hlow : i < 32
  · have source : (i + 64 - 32) % 64 = i + 32 := by omega
    rw [source, if_neg (by omega), if_pos hlow, Nat.add_sub_cancel]
  · have source : (i + 64 - 32) % 64 = i - 32 := by omega
    rw [source, if_pos (by omega), if_neg hlow]

/-- Two rotations that make a whole turn cancel. -/
theorem rotl64_rotl64_of_add_eq (a : Word) {r q : Nat} (hr : 0 < r) (hq : 0 < q) (turn : r + q = 64) :
    rotl64 (rotl64 a r) q = a := by
  apply BitVec.eq_of_getLsbD_eq
  intro i hi
  have back : ((i + 64 - q) % 64 + 64 - r) % 64 = i := by omega
  rw [getLsbD_rotl64 _ (by omega) hi, getLsbD_rotl64 _ (by omega) (Nat.mod_lt _ (by decide)), back]

/-- Settles O3: every clause but the formula follows bit by bit from where each bit comes from. -/
theorem rotl64MovesEachBit : Obligations.Rotl64MovesEachBit :=
  ⟨fun a r _ hr => ⟨toNat_rotl64 a r, fun _ hi => getLsbD_rotl64 a hr hi, rotl64_zero r, rotl64_allOnes hr⟩,
    rotl64_append_32, by decide⟩

/-! ### SipRound -/

/-- SipRound run backwards: steps 14 to 1, each undone. Adding is undone by subtracting, an exclusive OR by itself, and a
rotation by the rest of the turn. -/
def sipUnround (v : Lanes) : Lanes :=
  let v2 := rotl64 v.v2 32
  let v1 := rotl64 (v.v1 ^^^ v2) 47
  let v2 := v2 - v1
  let v3 := rotl64 (v.v3 ^^^ v.v0) 43
  let v0 := v.v0 - v3
  let v3 := rotl64 (v3 ^^^ v2) 48
  let v2 := v2 - v3
  let v0 := rotl64 v0 32
  let v1 := rotl64 (v1 ^^^ v0) 51
  let v0 := v0 - v1
  { v0 := v0, v1 := v1, v2 := v2, v3 := v3 }

theorem sipUnround_sipRound (v : Lanes) : sipUnround (sipRound v) = v := by
  simp [sipUnround, sipRound, add64_eq, xor64_eq, rotl64_rotl64_of_add_eq]

theorem sipRound_sipUnround (v : Lanes) : sipRound (sipUnround v) = v := by
  simp [sipUnround, sipRound, add64_eq, xor64_eq, rotl64_rotl64_of_add_eq]

theorem sipRound_bijective : Function.Bijective sipRound :=
  Function.bijective_iff_has_inverse.2 ⟨sipUnround, sipUnround_sipRound, sipRound_sipUnround⟩

/-- Settles O5: the model's rotations are the library's, and the two listings name the same values in another order, so
either is sipRound by definition; `sipUnround` is its inverse. -/
theorem sipRoundRunsTheListing : Obligations.SipRoundRunsTheListing := by
  refine ⟨fun v => ?listing, fun v => ?halvesSwapped, by decide, sipRound_bijective, by decide⟩
  case listing | halvesSwapped => simp only [sipRound, add64_eq, xor64_eq, rotl64_eq_rotateLeft, Nat.reduceLT]

end Sys2Proof.Machine
end

section
/-! Lane initialisation, absorption and finalization (40_sipstate_datapath R62, R64..R66). -/

namespace Sys2Proof.Machine

/-! ### LaneInit -/

/-- R62: each constant is its chunk of the string. -/
theorem initConstants_eq_bigEndian :
    initC0 = bigEndian (sourceString.take 8) ∧ initC1 = bigEndian ((sourceString.drop 8).take 8) ∧
    initC2 = bigEndian ((sourceString.drop 16).take 8) ∧ initC3 = bigEndian (sourceString.drop 24) := by decide

/-- Settles O4: LaneInit's constants are the string's chunks. -/
theorem laneInitMixesKeyAndString : Obligations.LaneInitMixesKeyAndString := by
  refine ⟨fun key0 key1 => ?_, ⟨rfl, rfl, rfl, rfl⟩, by decide, by decide⟩
  obtain ⟨h0, h1, h2, h3⟩ := initConstants_eq_bigEndian
  rw [← h0, ← h1, ← h2, ← h3]
  rfl

/-! ### AbsorbBlock and Finalize -/

theorem absorbLanes_eq (cr : Nat) (m : Word) (v : Lanes) : absorbLanes cr m v =
    (let r := sipRound^[cr] { v with v3 := v.v3 ^^^ m }
     { r with v0 := r.v0 ^^^ m }) := by
  simp only [absorbLanes, sipRounds_eq_iterate, Lanes.xorV3_eq, Lanes.xorV0_eq]

theorem finalizeLanes_eq (cr dr : Nat) (m : Word) (v : Lanes) : finalizeLanes cr dr m v =
    (let a := sipRound^[cr] { v with v3 := v.v3 ^^^ m }
     sipRound^[dr] { a with v0 := a.v0 ^^^ m, v2 := a.v2 ^^^ finalMark }) := by
  simp only [finalizeLanes, sipRounds_eq_iterate, absorbLanes_eq, Lanes.xorV2_eq]

theorem Lanes.digest_eq (v : Lanes) : v.digest = v.v0 ^^^ v.v1 ^^^ v.v2 ^^^ v.v3 := rfl

/-- FINISH in ABSORBING: the lanes stay as Finalize leaves them, RESULT is their XOR, and PHASE is FINISHED. -/
theorem exec_finish_absorbing (s : State) (h : s.block.phase = .absorbing) :
    exec .finish s = .next (s.setBlock
      { s.block.setLanes s.block.finalLanes with result := s.block.finalLanes.digest, phase := .finished }) := by
  rw [exec_finish, Block.finish_absorbing s.block h]

/-- Settles O7: Finalize with its repeated rounds as iterates, FINISH by its spec lemma, and the example by running it. -/
theorem finalizeAbsorbsThenMarksThenRounds : Obligations.FinalizeAbsorbsThenMarksThenRounds := by
  refine ⟨finalizeLanes_eq, Lanes.digest_eq, fun s h => ?finish, ?worked⟩
  case finish => exact ⟨_, exec_finish_absorbing s h, rfl, rfl, rfl⟩
  case worked => decide

end Sys2Proof.Machine
end

section
/-! What a run does (41_commands R68): every host operation is answered, so every step and every run is. -/

namespace Sys2Proof.Machine

theorem accept_total (p : PortAccess) (s : State) : ∃ u, accept p s = .next u := by
  cases p with
  | command t =>
    obtain ⟨b, hb, _⟩ := accept_command_cases t s
    exact ⟨_, hb⟩
  | read a => exact ⟨_, (accept_instr (.read a) _ s rfl).trans (exec_rd a s)⟩

theorem runOp_total (op : HostOp) (s : State) : ∃ u, runOp op s = .next u := by
  cases op with
  | access p => exact accept_total p s
  | reset => exact ⟨_, rfl⟩

theorem step_total (s : State) : ∃ u, step s = .next u := by
  cases h : s.ops with
  | nil => exact ⟨s, step_nil s h⟩
  | cons op rest =>
    rw [step_cons s op rest h]
    exact runOp_total op _

theorem run_total (k : Nat) (s : State) : ∃ u, run k s = .next u := by
  induction k generalizing s with
  | zero => exact ⟨s, run_zero s⟩
  | succ k ih =>
    obtain ⟨t, ht⟩ := step_total s
    rw [run_succ k s t ht]
    exact ih t

/-- Settles O46: each port access is answered by the case of its decoding, hence each host operation, each step and, step
by step, each run. -/
theorem theBlockNeverStops : Obligations.TheBlockNeverStops := by
  refine ⟨fun t s => ?transaction, fun t i s h => ?instruction, run_total⟩
  case transaction =>
    obtain ⟨u, hu⟩ := accept_total (.command t) s
    refine ⟨u, hu, fun why h => ?_⟩
    rw [accept_command_illegal t why s h] at hu
    exact (Host.Outcome.next.inj hu).symm
  case instruction =>
    have hexec := accept_command t i s h
    exact ⟨hexec, hexec ▸ accept_total (.command t) s⟩

end Sys2Proof.Machine
end

section
/-! NOP and INIT (41_commands R69, R70): what each leaves, and the words they are encoded in. -/

namespace Sys2Proof.Machine

/-! ### NOP -/

theorem exec_nop (s : State) : exec .nop s = .next s := rfl

/-- Settles O14: the word 0x0000 is the one that decodes to NOP, and 0x0010 has opcode 0 with a nonzero field. -/
theorem nopLeavesEveryState : Obligations.NopLeavesEveryState := by
  refine ⟨exec_nop, fun x y s => ?word, fun t => (decodeCommand_nop_iff t).1, fun x y s => ?illegal⟩
  case word => rw [accept_command _ _ s (decodeCommand_nop _ rfl), exec_nop]
  case illegal =>
    obtain ⟨why, h⟩ := (decodeCommand_illegal_exists_iff ⟨0x0010#16, x, y⟩).2 (by decide : ¬ IsLegalWord 0x0010#16)
    exact accept_command_illegal _ why s h

/-! ### INIT -/

theorem toNat_opField (w : CmdWord) : (opField w).toNat = w.toNat % 16 := by
  simp [opField]

/-- R49: a built word as a number. -/
theorem toNat_commandWord (d c n o : Nibble) :
    (commandWord d c n o).toNat = d.toNat * 4096 + c.toNat * 256 + n.toNat * 16 + o.toNat := by
  have ho := toNat_opField (commandWord d c n o)
  have hn := toNat_nField (commandWord d c n o)
  have hc := toNat_cField (commandWord d c n o)
  have hd := toNat_dField (commandWord d c n o)
  rw [opField_commandWord] at ho
  rw [nField_commandWord] at hn
  rw [cField_commandWord] at hc
  rw [dField_commandWord] at hd
  omega

/-- The block of a fresh hasher instance (R70). -/
def freshBlock (c d : Nibble) (key0 key1 : Word) : Block where
  lanes  := laneInit key0 key1
  buf    := 0
  plen   := 0
  len    := 0
  cr     := c
  dr     := d
  phase  := .absorbing
  err    := .none
  result := 0

/-- A successful INIT keeps nothing of the block before it. -/
theorem exec_init_good (c d : Nibble) (k0 k1 : Word) (s : State) (hc : c ≠ 0) (hd : d ≠ 0) :
    exec (.init c d k0 k1) s = .next (s.setBlock (freshBlock c d k0 k1)) := by
  rw [exec_init, Block.construct_good c d k0 k1 s.block hc hd]
  rfl

/-- Settles O15: INIT's two paths by their spec lemmas; a word that decodes to INIT has N = 0; the example by running it. -/
theorem initStartsAFreshInstance : Obligations.InitStartsAFreshInstance := by
  refine ⟨fun c d k0 k1 => ⟨_, rfl, ?layout, rfl, rfl⟩, exec_init_good, fun c d k0 k1 s h => ?config,
    fun t c d k0 k1 h => ?count, ?worked⟩
  case layout => simp [toNat_commandWord]
  case config => rw [exec_init, Block.construct_bad c d k0 k1 s.block h]; rfl
  case count =>
    obtain ⟨⟨_, hn⟩, _⟩ := (decodeCommand_init_iff t c d k0 k1).1 h
    exact hn
  case worked =>
    rw [accept_command _ _ _ (decodeCommand_init _ (by decide)), exec_init_good _ _ _ _ _ (by decide) (by decide)]
    rfl

end Sys2Proof.Machine
end

section
/-! WRITE (41_commands R72): the byte loop's closed form, by whether the operand completes the pending block. -/

namespace Sys2Proof.Machine

/-- The bytes of BUF in stream order, followed by those of a WRITE's operand. -/
abbrev Block.streamed (n : Nat) (x : Word) (b : Block) : List Byte :=
  operandBytes b.plen.toNat b.buf ++ operandBytes n x

theorem Block.length_streamed (n : Nat) (x : Word) (b : Block) : (b.streamed n x).length = b.plen.toNat + n := by
  simp

/-- The bytes a full block leaves for the next one, packed: R72's `d >> 8(8 - p)`. -/
theorem le64_streamed_drop (n : Nat) (x : Word) (b : Block) (hn : n ≤ 8) :
    le64 ((b.streamed n x).drop 8) = lowBytes n x >>> (8 * (8 - b.plen.toNat)) := by
  have hp : b.plen.toNat < 8 := b.plen.isLt
  have hdrop : (b.streamed n x).drop 8 = (operandBytes n x).drop (8 - b.plen.toNat) := by
    simp [List.drop_append, hp.le]
  rw [hdrop, le64_drop _ _ (by simpa using hn), le64_operandBytes]

/-- The operand fits into the pending block: it is appended. -/
theorem Block.takeBytes_of_lt (n : Nat) (x : Word) (b : Block) (hc : b.BufClean) (h : b.plen.toNat + n < 8) :
    b.takeBytes (operandBytes n x) = { b with
      buf := b.buf ||| (lowBytes n x <<< (8 * b.plen.toNat))
      plen := BitVec.ofNat 3 (b.plen.toNat + n)
      len := b.len + BitVec.ofNat 64 n } := by
  have hlt : (b.streamed n x).length < 8 := by rwa [Block.length_streamed]
  rw [Block.takeBytes_eq b n x hc, absorbAll_of_lt _ _ _ hlt, tailBytes_of_lt _ hlt, le64_pending_append b n x hc]

/-- The operand completes the pending block: the block is absorbed and the rest kept. -/
theorem Block.takeBytes_of_ge (n : Nat) (x : Word) (b : Block) (hn : n ≤ 8) (hc : b.BufClean)
    (h : 8 ≤ b.plen.toNat + n) :
    b.takeBytes (operandBytes n x) = { b.absorbBlock (b.buf ||| (lowBytes n x <<< (8 * b.plen.toNat))) with
      buf := lowBytes n x >>> (8 * (8 - b.plen.toNat))
      plen := BitVec.ofNat 3 (b.plen.toNat + n - 8)
      len := b.len + BitVec.ofNat 64 n } := by
  have hp : b.plen.toNat < 8 := b.plen.isLt
  have h8 : 8 ≤ (b.streamed n x).length := by rwa [Block.length_streamed]
  have h16 : (b.streamed n x).length < 16 := by rw [Block.length_streamed]; omega
  have hplen : BitVec.ofNat 3 (b.plen.toNat + n) = BitVec.ofNat 3 (b.plen.toNat + n - 8) := by
    apply BitVec.eq_of_toNat_eq
    simp only [BitVec.toNat_ofNat]
    omega
  rw [Block.takeBytes_eq b n x hc, absorbAll_of_one _ _ _ h8 h16, tailBytes_of_one _ h8 h16,
    le64_pending_append b n x hc, le64_streamed_drop n x b hn, hplen]
  rfl

theorem exec_write_absorbing (n : Nibble) (x : Word) (s : State) (hn : n.toNat ≤ 8) (hp : s.block.phase = .absorbing) :
    exec (.write n x) s = .next (s.setBlock (s.block.takeBytes (operandBytes n.toNat x))) := by
  rw [exec_write n x s hn, Block.write_absorbing _ x s.block hp]

/-- Settles O17: the loop feeds the stream of pending and operand bytes, of which below 8 all stay and from 8 on the first
8 are the block and the others stay; the byte positions are those of that stream. -/
theorem writeClosedForm : Obligations.WriteClosedForm := by
  refine ⟨fun n x s hn hphase hc => ⟨fun h => ?append, fun h => ?absorb⟩,
    fun n x b hn hc h => ⟨fun i hi => ?block, fun j hj => ?carried⟩⟩
  case append => rw [exec_write_absorbing n x s hn hphase, Block.takeBytes_of_lt _ x s.block hc h]; rfl
  case absorb => rw [exec_write_absorbing n x s hn hphase, Block.takeBytes_of_ge _ x s.block hn hc h]; rfl
  case block =>
    rw [← lowBytes, ← le64_pending_append b n.toNat x hc, byteOf_le64 _ i hi]
    split
    case isTrue hip =>
      rw [List.getD_append _ _ _ _ (by simpa using hip), getD_operandBytes, if_pos hip]
    case isFalse hip =>
      rw [List.getD_append_right _ _ _ _ (by simpa using hip), length_operandBytes, getD_operandBytes,
        if_pos (by omega)]
  case carried =>
    have hp : b.plen.toNat < 8 := b.plen.isLt
    rw [← lowBytes, ← le64_operandBytes, ← le64_drop _ _ (by simpa using hn), byteOf_le64 _ j (by omega),
      List.getD_eq_getElem?_getD, List.getElem?_drop, ← List.getD_eq_getElem?_getD, getD_operandBytes,
      if_pos (by omega)]

end Sys2Proof.Machine
end

section
/-! FINISH (41_commands R73, R74): the bytes of the final block, and the latched hash. -/

namespace Sys2Proof.Machine

/-! ### The final block -/

theorem Block.finalBlock_eq (b : Block) :
    b.finalBlock = b.buf ||| ((b.len.extractLsb' 0 8).setWidth 64 <<< 56) := by
  rw [Block.finalBlock, BitVec.setWidth_eq_extractLsb' (x := b.len) (by decide : 8 ≤ 64)]

theorem le64_replicate_zero (n : Nat) : le64 (List.replicate n 0) = 0 := by
  induction n with
  | zero => rfl
  | succ n ih => rw [List.replicate_succ, le64, ih]; rfl

/-- At most seven pending bytes filled up to eight: zeros up to byte 6, and the length byte (R73). -/
def finalBytes (pend : List Byte) (size : Byte) : List Byte := pend ++ List.replicate (7 - pend.length) 0 ++ [size]

section
variable (pend : List Byte) (size : Byte)

theorem le64_finalBytes (h : pend.length ≤ 7) :
    le64 (finalBytes pend size) = le64 pend ||| (size.setWidth 64 <<< 56) := by
  have h7 : (pend ++ List.replicate (7 - pend.length) 0).length = 7 := by simp; omega
  rw [finalBytes, le64_append, h7, le64_append, le64_replicate_zero]
  simp [le64]

theorem finalBytes_pending (i : Nat) (h : i < pend.length) : (finalBytes pend size).getD i 0 = pend.getD i 0 := by
  rw [finalBytes, List.append_assoc, List.getD_append _ _ _ _ h]

theorem finalBytes_zero (i : Nat) (h : pend.length ≤ i) (h7 : i < 7) : (finalBytes pend size).getD i 0 = 0 := by
  rw [finalBytes, List.append_assoc, List.getD_append_right _ _ _ _ h, List.getD_append _ _ _ _ (by simp; omega)]
  simp

theorem finalBytes_size (h : pend.length ≤ 7) : (finalBytes pend size).getD 7 0 = size := by
  have h7 : (pend ++ List.replicate (7 - pend.length) 0).length = 7 := by simp; omega
  rw [finalBytes, List.getD_append_right _ _ _ _ h7.le, h7]
  rfl
end

/-- The final block when the buffer packs the pending bytes `pend`. -/
theorem Block.finalBlock_eq_le64 (pend : List Byte) (b : Block) (hbuf : b.buf = le64 pend) (h : pend.length ≤ 7) :
    b.finalBlock = le64 (finalBytes pend (b.len.setWidth 8)) := by
  rw [Block.finalBlock, hbuf, le64_finalBytes pend _ h]

/-- The final block of a clean buffer, byte by byte. -/
theorem Block.byteOf_finalBlock (b : Block) (hc : b.BufClean) (i : Nat) (hi : i < 8) :
    byteOf b.finalBlock i = (finalBytes (operandBytes b.plen.toNat b.buf) (b.len.setWidth 8)).getD i 0 := by
  have hp : b.plen.toNat < 8 := b.plen.isLt
  rw [b.finalBlock_eq_le64 _ (le64_operandBytes_of_clean b.buf _ hc).symm (by simp; omega), byteOf_le64 _ i hi]

theorem Block.buf_eq_zero_of_plen (b : Block) (hc : b.BufClean) (h : b.plen = 0) : b.buf = 0 := by
  simpa [Block.BufClean, h] using hc

/-- Settles O19: with a clean buffer the final block packs the pending bytes filled up to eight; without pending bytes the
buffer is 0. -/
theorem finalBlockLayout : Obligations.FinalBlockLayout := by
  refine ⟨Block.finalBlock_eq, fun b hc => ⟨fun i hi => ?pending, fun i hi h7 => ?zeros, ?size, fun hp hl => ?len0,
    fun hp hl => ?len8, fun _ hl => ?len255, fun hp hl => ?len256⟩⟩
  case pending =>
    have hp : b.plen.toNat < 8 := b.plen.isLt
    rw [b.byteOf_finalBlock hc i (by omega), finalBytes_pending _ _ i (by simpa using hi), getD_operandBytes, if_pos hi]
  case zeros => rw [b.byteOf_finalBlock hc i (by omega), finalBytes_zero _ _ i (by simpa using hi) h7]
  case size =>
    have hp : b.plen.toNat < 8 := b.plen.isLt
    rw [b.byteOf_finalBlock hc 7 (by omega), finalBytes_size _ _ (by simp; omega), BitVec.toNat_setWidth]
  case len255 => rw [Block.finalBlock, hl]; rfl
  all_goals rw [Block.finalBlock, b.buf_eq_zero_of_plen hc hp, hl]; rfl

/-! ### FINISH -/

/-- Settles O20: FINISH's two paths by their spec lemmas; the example by running INIT and FINISH. -/
theorem finishLatchesTheHash : Obligations.FinishLatchesTheHash := by
  refine ⟨fun x y s => accept_command _ _ s (decodeCommand_finish _ rfl), fun s h => ⟨?latch, rfl⟩, fun s h => ?refused,
    ?worked⟩
  case latch => rw [exec_finish_absorbing s h, Block.finalLanes, Block.finalBlock_eq]; rfl
  case refused => rw [exec_finish, Block.finish_refused s.block h]; rfl
  case worked =>
    exact ⟨_, _, exec_init_good 2 4 _ _ _ (by decide) (by decide), exec_finish_absorbing _ rfl, by decide, rfl⟩

end Sys2Proof.Machine
end

section
/-! The streaming commands against the reference function (41_commands R75): the block after INIT and any chunks is that of
the byte loop over their concatenation, which the reference function's blocks and final block describe. -/

namespace Sys2Proof.Machine

/-! ### Running the command sequence -/

/-- A successful INIT, then the rest of the program. -/
theorem runOps_init (c d : Nibble) (k0 k1 : Word) (ops : List HostOp) (s : State) (hc : c ≠ 0) (hd : d ≠ 0) :
    runOps (issue (.init c d k0 k1) :: ops) s = runOps ops (s.setBlock (freshBlock c d k0 k1)) :=
  runOps_cons _ ops s _ ((runOp_issue_init c d k0 k1 _).trans (exec_init_good c d k0 k1 _ hc hd))

/-- The chunks of a host program, one WRITE each, run the byte loop over their concatenation. -/
theorem runOps_chunks (chunks : List (List Byte)) (ops : List HostOp) (s : State) (hphase : s.block.phase = .absorbing)
    (hlen : ∀ chunk ∈ chunks, chunk.length ≤ 8) :
    runOps ((chunks.map fun chunk => issue (writeChunk chunk)) ++ ops) s =
      runOps ops (s.setBlock (s.block.takeBytes chunks.flatten)) := by
  induction chunks generalizing s with
  | nil => rfl
  | cons chunk chunks ih =>
    obtain ⟨hchunk, hrest⟩ := List.forall_mem_cons.1 hlen
    have hfirst (rest : List HostOp) : runOps (issue (writeChunk chunk) :: rest) s =
        runOps rest (s.setBlock (s.block.takeBytes chunk)) :=
      runOps_cons _ rest s _ (runOp_issue_chunk chunk hchunk _ hphase)
    rw [List.map_cons, List.cons_append, hfirst, ih _ (by simpa using hphase) hrest, List.flatten_cons,
      Block.takeBytes_append]
    rfl

/-- A FINISH that ends the program. -/
theorem runOps_finish (s : State) : runOps [issue .finish] s = .next ((s.setBlock s.block.finish).setOps []) :=
  runOps_cons _ [] s _ ((runOp_issue_finish _).trans (exec_finish _))

/-! ### The block against the reference function -/

/-- A fresh instance that has taken the bytes `s` holds the lanes and the pending bytes of the stream `s`. -/
theorem takeBytes_freshBlock (c d : Nibble) (k0 k1 : Word) (s : List Byte) :
    ((freshBlock c d k0 k1).takeBytes s).lanes = absorbAll c.toNat s (laneInit k0 k1) ∧
    ((freshBlock c d k0 k1).takeBytes s).buf = le64 (tailBytes s) :=
  (freshBlock c d k0 k1).takeBytes_stream s [] rfl rfl

/-- Its final block is the reference function's. -/
theorem finalBlock_takeBytes_freshBlock (c d : Nibble) (k0 k1 : Word) (s : List Byte) :
    ((freshBlock c d k0 k1).takeBytes s).finalBlock = lastBlock s := by
  obtain ⟨_, hbuf⟩ := takeBytes_freshBlock c d k0 k1 s
  have hsize : ((freshBlock c d k0 k1).takeBytes s).len.setWidth 8 = BitVec.ofNat 8 s.length := by
    apply BitVec.eq_of_toNat_eq
    simp [Block.takeBytes_len, freshBlock]
  rw [Block.finalBlock_eq_le64 (tailBytes s) _ hbuf (by rw [length_tailBytes]; omega), hsize]
  rfl

/-- FINISH then latches the reference function's value. -/
theorem digest_finalLanes_takeBytes_freshBlock (c d : Nibble) (k0 k1 : Word) (s : List Byte) :
    ((freshBlock c d k0 k1).takeBytes s).finalLanes.digest = sipHash c.toNat d.toNat k0 k1 s := by
  obtain ⟨hlanes, _⟩ := takeBytes_freshBlock c d k0 k1 s
  rw [Block.finalLanes, finalBlock_takeBytes_freshBlock, hlanes, Block.takeBytes_cr, Block.takeBytes_dr]
  rfl

/-- Settles O22: INIT and the WRITEs leave the byte loop's block over the concatenation, whose FINISH is the reference
function's; the two published values by evaluating the reference function. -/
theorem streamingEquivalence : Obligations.StreamingEquivalence := by
  refine ⟨fun c d k0 k1 chunks s hc hd hlen => ?stream, by decide, by decide⟩
  have hphase : ((freshBlock c d k0 k1).takeBytes chunks.flatten).phase = .absorbing := Block.takeBytes_phase _ _
  rw [hashSequence, List.cons_append, runOps_init c d k0 k1 _ s hc hd, runOps_chunks chunks _ _ rfl hlen,
    runOps_finish]
  simp only [State.setBlock_block, Block.finish_absorbing _ hphase]
  exact ⟨_, rfl, digest_finalLanes_takeBytes_freshBlock c d k0 k1 chunks.flatten, rfl, Block.takeBytes_err _ _⟩

end Sys2Proof.Machine
end

section
/-! The registers of the read port (42_readout R79, R84, R85): what each address reads, and RAW_EN in STATUS. -/

namespace Sys2Proof.Machine

/-! ### The gate of the raw-state registers -/

theorem gated_open (cfg : Config) (w : Word) (h : cfg.rawStateAccess = true) : gated cfg w = w := if_pos h

theorem gated_closed (cfg : Config) (w : Word) (h : cfg.rawStateAccess = false) : gated cfg w = 0 := by
  simp [gated, h]

/-! ### What an address reads -/

section
variable (cfg : Config) (b : Block)

@[simp] theorem readReg_status : readReg cfg 0x0#4 b = statusWord cfg b := rfl
@[simp] theorem readReg_result : readReg cfg 0x1#4 b = b.result := rfl
@[simp] theorem readReg_v0 : readReg cfg 0x8#4 b = gated cfg b.lanes.v0 := rfl
@[simp] theorem readReg_v1 : readReg cfg 0x9#4 b = gated cfg b.lanes.v1 := rfl
@[simp] theorem readReg_v2 : readReg cfg 0xA#4 b = gated cfg b.lanes.v2 := rfl
@[simp] theorem readReg_v3 : readReg cfg 0xB#4 b = gated cfg b.lanes.v3 := rfl
@[simp] theorem readReg_pbuf : readReg cfg 0xC#4 b = gated cfg b.buf := rfl
@[simp] theorem readReg_plen : readReg cfg 0xD#4 b = gated cfg (b.plen.setWidth 64) := rfl
@[simp] theorem readReg_len : readReg cfg 0xE#4 b = gated cfg b.len := rfl

/-- The raw-state addresses read 0 when the gate is closed. -/
theorem readReg_raw_closed (h : cfg.rawStateAccess = false) (a : Nibble) (h8 : 0x8 ≤ a.toNat) (hE : a.toNat ≤ 0xE) :
    readReg cfg a b = 0 := by
  unfold readReg
  generalize a.toNat = n at h8 hE
  interval_cases n <;> exact gated_closed cfg _ h

/-- The reserved addresses read 0 in both builds. -/
theorem readReg_reserved (a : Nibble) (h : (2 ≤ a.toNat ∧ a.toNat ≤ 7) ∨ a.toNat = 0xF) : readReg cfg a b = 0 := by
  unfold readReg
  generalize a.toNat = n at h
  rcases h with ⟨h2, h7⟩ | rfl
  · interval_cases n <;> rfl
  · rfl

/-- The ranges of the two lemmas above leave two addresses, STATUS and RESULT. -/
theorem readAddress_cases (a : Nibble) : a = 0x0 ∨ a = 0x1 ∨ (0x8 ≤ a.toNat ∧ a.toNat ≤ 0xE) ∨
    ((2 ≤ a.toNat ∧ a.toNat ≤ 7) ∨ a.toNat = 0xF) := by
  bv_omega

/-- RAW_EN is bit 3 of STATUS: the fields below end before it and those above begin after it (R81). -/
theorem statusWord_rawEn : (statusWord cfg b).getLsbD 3 = cfg.rawStateAccess := by
  simp [statusWord]

end

/-- Settles O25: RD's meaning, and each address by its lemma. -/
theorem rdReturnsTheRegister : Obligations.RdReturnsTheRegister := by
  refine ⟨exec_rd, fun cfg b => ⟨readReg_status cfg b, readReg_result cfg b, fun h => ?opened, statusWord_rawEn cfg b,
    readReg_raw_closed cfg b, readReg_reserved cfg b⟩, statusWord_reset false⟩
  case opened =>
    have hplen : (b.plen.setWidth 64).toNat = b.plen.toNat := BitVec.toNat_setWidth_of_le (by decide)
    simp [gated_open cfg _ h, hplen]

end Sys2Proof.Machine
end

section
/-! The closed gate as noninterference (42_readout R84): what a block shows without RAW_STATE_ACCESS is a function of PHASE,
ERR, CR, DR and RESULT, and each operation computes that part of the next block from that part of the last, but for the
RESULT of a FINISH in ABSORBING. -/

namespace Sys2Proof.Machine

/-! ### One read -/

theorem statusWord_congr (cfg : Config) (b c : Block) (h : b.SameStatus c) : statusWord cfg b = statusWord cfg c := by
  obtain ⟨hphase, herr, hcr, hdr⟩ := h
  simp only [statusWord, Block.resultValid, hphase, herr, hcr, hdr]

/-- No read tells the two blocks apart when the gate is closed. -/
theorem readReg_closed_congr (cfg : Config) (b c : Block) (hraw : cfg.rawStateAccess = false) (h : b.SameStatus c)
    (hresult : b.result = c.result) (a : Nibble) : readReg cfg a b = readReg cfg a c := by
  rcases readAddress_cases a with rfl | rfl | ⟨h8, hE⟩ | hres
  · exact statusWord_congr cfg b c h
  · exact hresult
  · rw [readReg_raw_closed cfg b hraw a h8 hE, readReg_raw_closed cfg c hraw a h8 hE]
  · rw [readReg_reserved cfg b a hres, readReg_reserved cfg c a hres]

/-! ### The commands on two blocks that show the same status -/

section
variable {b c : Block} (h : b.SameStatus c)
include h

theorem Block.SameStatus.raise (e : Cause) : (b.raise e).SameStatus (c.raise e) := by
  obtain ⟨hphase, _, hcr, hdr⟩ := h
  exact ⟨congrArg e.phaseAfter hphase, rfl, hcr, hdr⟩

/-- INIT clears RESULT on both its paths (R70). -/
theorem Block.SameStatus.construct (m n : Nibble) (k0 k1 : Word) :
    (b.construct m n k0 k1).SameStatus (c.construct m n k0 k1) ∧
      (b.construct m n k0 k1).result = (c.construct m n k0 k1).result := by
  by_cases hbad : m = 0 ∨ n = 0
  · rw [Block.construct_bad m n k0 k1 b hbad, Block.construct_bad m n k0 k1 c hbad]
    exact ⟨Block.SameStatus.raise (b := { b with result := 0 }) (c := { c with result := 0 }) h .config, rfl⟩
  · obtain ⟨hm, hn⟩ := not_or.1 hbad
    rw [Block.construct_good m n k0 k1 b hm hn, Block.construct_good m n k0 k1 c hm hn]
    exact ⟨⟨rfl, rfl, rfl, rfl⟩, rfl⟩

theorem Block.SameStatus.write (n : Nat) (x : Word) (hresult : b.result = c.result) :
    (b.write n x).SameStatus (c.write n x) ∧ (b.write n x).result = (c.write n x).result := by
  by_cases hb : b.phase = .absorbing
  · rw [Block.write_absorbing n x b hb, Block.write_absorbing n x c (h.1 ▸ hb)]
    simp only [Block.SameStatus, Block.takeBytes_phase, Block.takeBytes_err, Block.takeBytes_cr, Block.takeBytes_dr,
      Block.takeBytes_result]
    exact ⟨h, hresult⟩
  · rw [Block.write_refused n x b hb, Block.write_refused n x c (h.1 ▸ hb)]
    exact ⟨h.raise .invalidState, hresult⟩

/-- Only the RESULT that FINISH latches in ABSORBING depends on what the gate hides. -/
theorem Block.SameStatus.finish (hresult : b.result = c.result) :
    b.finish.SameStatus c.finish ∧ (b.finish.result = c.finish.result ∨ b.phase = .absorbing) := by
  by_cases hb : b.phase = .absorbing
  · rw [Block.finish_absorbing b hb, Block.finish_absorbing c (h.1 ▸ hb)]
    obtain ⟨_, herr, hcr, hdr⟩ := h
    exact ⟨⟨rfl, herr, hcr, hdr⟩, .inr hb⟩
  · rw [Block.finish_refused b hb, Block.finish_refused c (h.1 ▸ hb)]
    exact ⟨h.raise .invalidState, .inl hresult⟩

end

/-! ### One step of two states -/

/-- A command leaves two such states with blocks that show the same, but for a FINISH in ABSORBING. -/
theorem accept_command_congr (tx : Transaction) (s t : State) (h : s.block.SameStatus t.block)
    (hresult : s.block.result = t.block.result) :
    ∃ b c, accept (.command tx) s = .next (s.setBlock b) ∧ accept (.command tx) t = .next (t.setBlock c) ∧
      b.SameStatus c ∧
      (b.result = c.result ∨ (s.block.phase = .absorbing ∧ decodeCommand tx = .instr .finish)) := by
  rcases decodeCommand_cases tx with ⟨_, hd⟩ | ⟨_, hd⟩ | ⟨⟨_, _, _, hn⟩, hd⟩ | ⟨_, hd⟩ | ⟨_, _, _, _, hd⟩
  case inr.inr.inr.inr =>
    exact ⟨_, _, accept_command_illegal _ _ s hd, accept_command_illegal _ _ t hd, h.raise .badCommand, .inl hresult⟩
  all_goals rw [accept_command _ _ s hd, accept_command _ _ t hd]
  · exact ⟨_, _, exec_nop s, exec_nop t, h, .inl hresult⟩
  · obtain ⟨hstatus, hres⟩ := h.construct (cField tx.cmd) (dField tx.cmd) tx.data0 tx.data1
    exact ⟨_, _, exec_init _ _ _ _ s, exec_init _ _ _ _ t, hstatus, .inl hres⟩
  · obtain ⟨hstatus, hres⟩ := h.write (nField tx.cmd).toNat tx.data0 hresult
    exact ⟨_, _, exec_write _ _ s hn, exec_write _ _ t hn, hstatus, .inl hres⟩
  · obtain ⟨hstatus, hres⟩ := h.finish hresult
    exact ⟨_, _, exec_finish s, exec_finish t, hstatus, hres.imp_right fun hp => ⟨hp, hd⟩⟩

theorem step_closed_congr (s t : State) (hraw : s.cfg.rawStateAccess = false) (h : s.SameSeen t) :
    ∃ s' t', step s = .next s' ∧ step t = .next t' ∧ s'.SameSeenButResult t' ∧
      (s'.block.result = t'.block.result ∨
        (s.block.phase = .absorbing ∧ ∃ tx rest, s.ops = .access (.command tx) :: rest ∧
          decodeCommand tx = .instr .finish)) := by
  obtain ⟨⟨hcfg, hops, hreads, hstatus⟩, hresult⟩ := h
  cases hs : s.ops with
  | nil => exact ⟨s, t, step_nil s hs, step_nil t (hops ▸ hs), ⟨hcfg, hops, hreads, hstatus⟩, .inl hresult⟩
  | cons op rest =>
    rw [step_cons s op rest hs, step_cons t op rest (hops ▸ hs)]
    match op with
    | .reset => exact ⟨_, _, rfl, rfl, ⟨hcfg, rfl, hreads, rfl, rfl, rfl, rfl⟩, .inl rfl⟩
    | .access (.read a) =>
      have hlog : s.reads ++ [readReg s.cfg a s.block] = t.reads ++ [readReg t.cfg a t.block] := by
        rw [hreads, ← hcfg, readReg_closed_congr s.cfg s.block t.block hraw hstatus hresult a]
      exact ⟨_, _, exec_rd a _, exec_rd a _, ⟨hcfg, rfl, hlog, hstatus⟩, .inl hresult⟩
    | .access (.command tx) =>
      obtain ⟨b, c, hb, hc, hbc, hres⟩ := accept_command_congr tx (s.setOps rest) (t.setOps rest) hstatus hresult
      exact ⟨_, _, hb, hc, ⟨hcfg, rfl, hreads, hbc⟩, hres.imp_right fun ⟨hp, hd⟩ => ⟨hp, tx, rest, rfl, hd⟩⟩

theorem step_cfg (s t : State) (h : step s = .next t) : t.cfg = s.cfg := by
  rcases step_cases s t h with ⟨_, rfl⟩ | ⟨_, _, _, _, rfl, _⟩ | ⟨_, _, _, rfl⟩ | ⟨_, _, rfl⟩ <;> rfl

/-- Settles O28: a read shows the status fields and RESULT alone, and a step computes them from themselves. -/
theorem rawGateHidesLanesBufferAndCounter : Obligations.RawGateHidesLanesBufferAndCounter :=
  ⟨fun cfg b c hraw => ⟨readReg_raw_closed cfg b hraw, fun hphase herr hcr hdr hresult =>
      readReg_closed_congr cfg b c hraw ⟨hphase, herr, hcr, hdr⟩ hresult⟩,
    step_closed_congr, step_cfg, statusWord_rawEn, rfl⟩

end Sys2Proof.Machine
end

section
/-! RESULT on the read port (42_readout R82): hidden outside FINISHED, and kept in FINISHED by all but INIT and reset. -/

namespace Sys2Proof.Machine

theorem Block.resultValid_eq_false_iff (b : Block) : b.resultValid = false ↔ b.phase ≠ .finished :=
  decide_eq_false_iff_not

/-- No cause but CONFIG, INIT's own, takes a block out of FINISHED (R88). -/
theorem Cause.phaseAfter_finished (e : Cause) (h : e ≠ .config) : e.phaseAfter .finished = .finished := by
  cases e with
  | config => exact absurd rfl h
  | invalidState => rfl
  | badCommand => rfl

/-- In FINISHED every command but INIT does nothing or raises an error that keeps PHASE. -/
theorem accept_command_finished (tx : Transaction) (s : State) (b : Block) (hp : s.block.phase = .finished)
    (hb : accept (.command tx) s = .next (s.setBlock b)) :
    (b.phase = .finished ∧ b.result = s.block.result) ∨
      ∃ c d k0 k1, decodeCommand tx = .instr (.init c d k0 k1) := by
  have hna : s.block.phase ≠ .absorbing := by simp [hp]
  have raised (e : Cause) (he : e ≠ .config) :
      (s.block.raise e).phase = .finished ∧ (s.block.raise e).result = s.block.result :=
    ⟨hp ▸ e.phaseAfter_finished he, rfl⟩
  obtain ⟨b', hb', hcases⟩ := accept_command_cases tx s
  obtain rfl : b' = b := congrArg State.block (Host.Outcome.next.inj (hb'.symm.trans hb))
  rcases hcases with ⟨_, rfl⟩ | ⟨c, d, k0, k1, hd, _⟩ | ⟨n, x, _, _, rfl⟩ | ⟨_, rfl⟩ | ⟨_, _, rfl⟩
  · exact .inl ⟨hp, rfl⟩
  · exact .inr ⟨c, d, k0, k1, hd⟩
  · rw [Block.write_refused _ x _ hna]
    exact .inl (raised .invalidState (by decide))
  · rw [Block.finish_refused _ hna]
    exact .inl (raised .invalidState (by decide))
  · exact .inl (raised .badCommand (by decide))

/-- Settles O29: FINISH latches the digest, the invariants hide RESULT outside FINISHED, and of the steps from FINISHED
only a reset and an INIT write it. -/
theorem resultStaysReadable : Obligations.ResultStaysReadable := by
  refine ⟨fun s hp => ⟨_, exec_finish_absorbing s hp, rfl, fun _ => rfl⟩, fun cfg b hinv hvalid => ?hidden,
    fun s t h hp => ?kept⟩
  case hidden =>
    obtain ⟨_, hhidden, _, _⟩ := hinv
    exact hhidden (b.resultValid_eq_false_iff.1 hvalid)
  case kept =>
    rcases step_cases s t h with ⟨_, rfl⟩ | ⟨tx, rest, b, hops, rfl, hb⟩ | ⟨_, _, _, rfl⟩ | ⟨rest, hops, rfl⟩
    · exact .inl ⟨hp, rfl⟩
    · refine (accept_command_finished tx s b hp hb).imp_right fun ⟨c, d, k0, k1, hd⟩ => ?_
      exact ⟨_, rest, hops, .inr ⟨tx, c, d, k0, k1, rfl, hd⟩⟩
    · exact .inl ⟨hp, rfl⟩
    · exact .inr ⟨_, rest, hops, .inl rfl⟩

end Sys2Proof.Machine
end

section
/-! Errors and phases (60_exceptions R88, R89, R94): PHASE and ERR after each command, read off its word's decoding. The
decoding comes before every check, so a cell of R94's table is a lookup, then the effect of the command it answers. -/

namespace Sys2Proof.Machine

/-! ### The block after a command, as a function of the decoding -/

/-- The block a command leaves when its word decodes so. No command word decodes to RD, which leaves the block alone. -/
def Block.afterDecoded (b : Block) : Decoded → Block
  | .instr .nop => b
  | .instr (.init c d k0 k1) => b.construct c d k0 k1
  | .instr (.write n x) => b.write n.toNat x
  | .instr .finish => b.finish
  | .instr (.rd _) => b
  | .illegal _ => b.raise .badCommand

theorem accept_command_eq (t : Transaction) (s : State) :
    accept (.command t) s = .next (s.setBlock (s.block.afterDecoded (decodeCommand t))) := by
  obtain ⟨b, hb, hcases⟩ := accept_command_cases t s
  rw [hb]
  rcases hcases with ⟨hd, rfl⟩ | ⟨c, d, k0, k1, hd, rfl⟩ | ⟨n, x, hd, _, rfl⟩ | ⟨hd, rfl⟩ | ⟨why, hd, rfl⟩ <;>
    rw [hd, Block.afterDecoded]

/-! ### PHASE and ERR after each command -/

section
variable (b : Block)

theorem Block.construct_phase (c d : Nibble) (k0 k1 : Word) :
    (b.construct c d k0 k1).phase = if c = 0 ∨ d = 0 then .unkeyed else .absorbing := by
  split
  · next bad => rw [Block.construct_bad c d k0 k1 b bad]; rfl
  · next good => rw [Block.construct_good c d k0 k1 b (not_or.1 good).1 (not_or.1 good).2]; rfl

theorem Block.construct_err (c d : Nibble) (k0 k1 : Word) :
    (b.construct c d k0 k1).err = if c = 0 ∨ d = 0 then .config else .none := by
  split
  · next bad => rw [Block.construct_bad c d k0 k1 b bad]; rfl
  · next good => rw [Block.construct_good c d k0 k1 b (not_or.1 good).1 (not_or.1 good).2]; rfl

theorem Block.write_phase (n : Nat) (x : Word) : (b.write n x).phase = b.phase := by
  by_cases h : b.phase = .absorbing
  · rw [Block.write_absorbing n x b h, Block.takeBytes_phase]
  · rw [Block.write_refused n x b h, Block.raise_phase, Cause.phaseAfter_invalidState]

theorem Block.write_err (n : Nat) (x : Word) :
    (b.write n x).err = if b.phase = .absorbing then b.err else .invalidState := by
  split
  · next h => rw [Block.write_absorbing n x b h, Block.takeBytes_err]
  · next h => rw [Block.write_refused n x b h, Block.raise_err, Cause.err_invalidState]

theorem Block.finish_phase : b.finish.phase = if b.phase = .absorbing then .finished else b.phase := by
  split
  · next h => rw [Block.finish_absorbing b h]
  · next h => rw [Block.finish_refused b h, Block.raise_phase, Cause.phaseAfter_invalidState]

theorem Block.finish_err : b.finish.err = if b.phase = .absorbing then b.err else .invalidState := by
  split
  · next h => rw [Block.finish_absorbing b h, Block.setLanes_err]
  · next h => rw [Block.finish_refused b h, Block.raise_err, Cause.err_invalidState]

end

/-! ### An edge with rst = 1 -/

/-- Reset wins over a command on the same edge (R89). -/
theorem Clocked.event_of_rst {p : Pins} (h : p.rst = true) (m : Clocked) : m.event p = some .reset := if_pos h

/-! ### The statements -/

/-- Settles O32: the decoding picks the command, and each command's ERR is that of its one check; an edge with rst = 1 is
the reset event. -/
theorem errorPriority : Obligations.ErrorPriority := by
  refine ⟨fun t s => ⟨_, accept_command_eq t s, fun why h => ?illegal, fun n x h => ?write, fun h => ?finish,
      fun c d k0 k1 h => ?init, fun h => ?nop⟩,
    fun latency p m h => ⟨Clocked.accepts_of_rst h m, Clocked.event_of_rst h m, Clocked.edge_of_rst h m latency⟩⟩
  all_goals rw [h, State.setBlock_block]
  case illegal => exact Block.raise_err .badCommand s.block
  case write => exact s.block.write_err n.toNat x
  case finish => exact s.block.finish_err
  case init => exact s.block.construct_err c d k0 k1
  case nop => rfl

/-- Settles O33: the decoding picks the column; WRITE, FINISH and an ILLEGAL word tell ABSORBING from the other phases. -/
theorem phaseTransitionTable : Obligations.PhaseTransitionTable := by
  refine fun t s => ⟨_, accept_command_eq t s, fun h => ?nop, fun c d k0 k1 h hc hd => ?init,
    fun c d k0 k1 h hbad => ?config, fun n x h => ?write, fun h => ?finish, fun why h => ?illegal⟩
  all_goals rw [h, State.setBlock_block]
  case nop => exact ⟨rfl, rfl⟩
  case init =>
    have legal : ¬(c = 0 ∨ d = 0) := by rintro (rfl | rfl) <;> contradiction
    exact ⟨(s.block.construct_phase c d k0 k1).trans (if_neg legal),
      (s.block.construct_err c d k0 k1).trans (if_neg legal)⟩
  case config =>
    exact ⟨(s.block.construct_phase c d k0 k1).trans (if_pos hbad),
      (s.block.construct_err c d k0 k1).trans (if_pos hbad)⟩
  case write =>
    refine ⟨s.block.write_phase n.toNat x, (s.block.write_err n.toNat x).trans ?_⟩
    cases s.block.phase <;> rfl
  case finish =>
    have hphase := s.block.finish_phase
    have herr := s.block.finish_err
    cases hp : s.block.phase <;> rw [hp] at hphase herr <;> exact ⟨hphase, herr⟩
  case illegal =>
    refine ⟨rfl, (Cause.phaseAfter_badCommand s.block.phase).trans ?_⟩
    cases s.block.phase <;> rfl

/-- Settles O31: what `Block.raise` writes, per cause; and each failing command raises its error by its spec lemma. -/
theorem raiseWritesErrAndPhaseOnly : Obligations.RaiseWritesErrAndPhaseOnly := by
  refine ⟨fun b => rfl, fun b => rfl, Block.raise_badCommand, ⟨rfl, rfl, rfl, rfl⟩, fun i s hi hp => ?refused,
    fun c d k0 k1 s h => ?config, accept_command_illegal, fun s hp => ?faulted⟩
  case refused =>
    rcases hi with ⟨n, x, rfl, hn⟩ | rfl
    · rw [exec_write n x s hn, Block.write_refused n.toNat x s.block hp]
    · rw [exec_finish, Block.finish_refused s.block hp]
  case config => rw [exec_init, Block.construct_bad c d k0 k1 s.block h]
  case faulted =>
    have hna : s.block.phase ≠ .absorbing := by simp [hp]
    rw [exec_finish, Block.finish_refused s.block hna]
    rfl

end Sys2Proof.Machine
end

section
/-! Decode and encode agree (30_encoding R49..R57): the encoder fills in the fields that the decoder tests. -/

namespace Sys2Proof

/-- Settles O10, constructor by constructor: the encoded word is the one its legal form decodes from. -/
theorem decodeOfEncodeIsTheInstruction : Obligations.DecodeOfEncodeIsTheInstruction := by
  intro i hwf
  cases i with
  | nop => exact decodeCommand_nop _ rfl
  | init c d key0 key1 => exact Machine.decode_initWord c d key0 key1
  | write n data0 => exact Machine.decode_writeWord n (of_decide_eq_true hwf) data0 0
  | finish => exact decodeCommand_finish _ rfl
  | rd a => rfl

/-- The decoder answers only well-formed instructions, each for the word that the encoder builds. -/
theorem encode_of_decodeCommand (t : Transaction) (i : Instr) (h : decodeCommand t = .instr i) :
    i.WellFormed ∧ ∃ u : Transaction, encode i = .command u ∧ u.cmd = t.cmd := by
  have hans := (decodeCommand_eq_iff t _).1 h
  cases i with
  | nop => exact ⟨rfl, _, rfl, Eq.symm hans⟩
  | init c d key0 key1 =>
    obtain ⟨⟨hop, hn⟩, rfl, rfl, _, _⟩ := hans
    exact ⟨rfl, _, rfl, ((eq_commandWord_iff t.cmd _ _ 0 1).2 ⟨hop, hn, rfl, rfl⟩).symm⟩
  | write n data0 =>
    obtain ⟨⟨hop, hc, hd, hcount⟩, rfl, _⟩ := hans
    exact ⟨decide_eq_true hcount, _, rfl, ((eq_commandWord_iff t.cmd 0 0 _ 2).2 ⟨hop, rfl, hc, hd⟩).symm⟩
  | finish => exact ⟨rfl, _, rfl, Eq.symm hans⟩
  | rd a => exact absurd h (decodeCommand_ne_rd t a)

/-- Settles O11: on the command port from what the decoder can answer; on the read port every address is its own RD. -/
theorem encodeOfDecodeIsTheWord : Obligations.EncodeOfDecodeIsTheWord := by
  refine ⟨encode_of_decodeCommand, fun a i h => ?read⟩
  obtain rfl : Instr.rd a = i := Decoded.instr.inj h
  rfl

/-- Settles O9: the words with their operands at 0 by evaluation; the last for all operands, from its fields. -/
theorem writtenWordsDecode : Obligations.WrittenWordsDecode := by
  refine ⟨by decide, by decide, by decide, by decide, by decide, by decide, fun x y => ?operands⟩
  exact (decodeCommand_init_iff ⟨0x3101#16, x, y⟩ 1 3 x y).2
    ⟨(by decide : IsInitWord 0x3101#16), (by decide : 1 = cField 0x3101#16), (by decide : 3 = dField 0x3101#16),
      rfl, rfl⟩

end Sys2Proof
end

section
/-! What one step can do to the block, said once (`Block.Effect`), and what follows from it alone: which operations can
change ERR, PHASE, the schedule, the lanes and RESULT. -/

namespace Sys2Proof.Machine

/-! ### The effect of one host operation -/

/-- The blocks that a host operation can leave when it finds the block `b`. -/
inductive Block.Effect (b : Block) : HostOp → Block → Prop
  /-- NOP and RD. -/
  | kept (op : HostOp) : Effect b op b
  /-- Every error but INIT's. -/
  | raised (op : HostOp) (e : Cause) (he : e ≠ .config) : Effect b op (b.raise e)
  | reset : Effect b .reset Block.reset
  | started {tx : Transaction} {c d : Nibble} (word : decodeCommand tx = .instr (.init c d tx.data0 tx.data1))
      (hc : c ≠ 0) (hd : d ≠ 0) : Effect b (.access (.command tx)) (freshBlock c d tx.data0 tx.data1)
  /-- INIT with C = 0 or D = 0. -/
  | unscheduled {tx : Transaction} {c d : Nibble} {key0 key1 : Word}
      (word : decodeCommand tx = .instr (.init c d key0 key1)) :
      Effect b (.access (.command tx)) (({ b with result := 0 } : Block).raise .config)
  | absorbed {tx : Transaction} {n : Nibble} {x : Word} (word : decodeCommand tx = .instr (.write n x))
      (hphase : b.phase = .absorbing) : Effect b (.access (.command tx)) (b.takeBytes (operandBytes n.toNat x))
  | latched {tx : Transaction} (word : decodeCommand tx = .instr .finish) (hphase : b.phase = .absorbing) :
      Effect b (.access (.command tx))
        { b.setLanes b.finalLanes with result := b.finalLanes.digest, phase := .finished }

theorem Block.effect_construct (b : Block) {tx : Transaction} {c d : Nibble} {key0 key1 : Word}
    (word : decodeCommand tx = .instr (.init c d key0 key1)) :
    b.Effect (.access (.command tx)) (b.construct c d key0 key1) := by
  by_cases hbad : c = 0 ∨ d = 0
  · rw [Block.construct_bad c d key0 key1 b hbad]
    exact .unscheduled word
  · obtain ⟨hc, hd⟩ := not_or.1 hbad
    obtain ⟨_, _, _, rfl, rfl⟩ := (decodeCommand_init_iff tx c d key0 key1).1 word
    rw [Block.construct_good c d _ _ b hc hd]
    exact .started word hc hd

theorem Block.effect_write (b : Block) {tx : Transaction} {n : Nibble} {x : Word}
    (word : decodeCommand tx = .instr (.write n x)) : b.Effect (.access (.command tx)) (b.write n.toNat x) := by
  by_cases hphase : b.phase = .absorbing
  · rw [Block.write_absorbing n.toNat x b hphase]
    exact .absorbed word hphase
  · rw [Block.write_refused n.toNat x b hphase]
    exact .raised _ .invalidState (by decide)

theorem Block.effect_finish (b : Block) {tx : Transaction} (word : decodeCommand tx = .instr .finish) :
    b.Effect (.access (.command tx)) b.finish := by
  by_cases hphase : b.phase = .absorbing
  · rw [Block.finish_absorbing b hphase]
    exact .latched word hphase
  · rw [Block.finish_refused b hphase]
    exact .raised _ .invalidState (by decide)

theorem effect_of_accept_command (tx : Transaction) (s : State) (b : Block)
    (h : accept (.command tx) s = .next (s.setBlock b)) : s.block.Effect (.access (.command tx)) b := by
  obtain ⟨b', hb', hcases⟩ := accept_command_cases tx s
  obtain rfl : b' = b := congrArg State.block (Host.Outcome.next.inj (hb'.symm.trans h))
  rcases hcases with ⟨_, rfl⟩ | ⟨c, d, k0, k1, word, rfl⟩ | ⟨n, x, word, _, rfl⟩ | ⟨word, rfl⟩ | ⟨_, _, rfl⟩
  · exact .kept _
  · exact s.block.effect_construct word
  · exact s.block.effect_write word
  · exact s.block.effect_finish word
  · exact .raised _ .badCommand (by decide)

/-- A step has the effect of the operation it takes; without one it keeps the block. -/
theorem step_effect {s t : State} (h : step s = .next t) :
    t.block = s.block ∨ ∃ op rest, s.ops = op :: rest ∧ s.block.Effect op t.block := by
  rcases step_cases s t h with ⟨_, rfl⟩ | ⟨tx, rest, b, hops, rfl, hb⟩ | ⟨a, rest, _, rfl⟩ | ⟨rest, hops, rfl⟩
  · exact .inl rfl
  · exact .inr ⟨_, rest, hops, effect_of_accept_command tx s b hb⟩
  · exact .inl rfl
  · exact .inr ⟨_, rest, hops, .reset⟩

/-- A step that changes the block took an operation, which had that effect. -/
theorem step_effect_of_ne {s t : State} (h : step s = .next t) (hne : t.block ≠ s.block) :
    ∃ op rest, s.ops = op :: rest ∧ s.block.Effect op t.block := (step_effect h).resolve_left hne

/-! ### What an effect tells of its operation -/

theorem Cause.err_ne_none (e : Cause) : e.err ≠ .none := by cases e <;> simp

/-- An error ends in ABSORBING or FINISHED only where it began there. -/
theorem Cause.phaseAfter_of_running {e : Cause} {p : Phase}
    (h : e.phaseAfter p = .absorbing ∨ e.phaseAfter p = .finished) : e.phaseAfter p = p := by
  rcases e.phaseAfter_eq p with hp | hp | ⟨_, hp⟩
  · exact hp
  all_goals rw [hp] at h; simp at h

section
variable {b b' : Block} {op : HostOp} (h : b.Effect op b')
include h

theorem Block.Effect.clears_err (hset : b.err ≠ .none) (hclear : b'.err = .none) : op = .reset ∨ IsGoodInit op := by
  cases h with
  | reset => exact .inl rfl
  | started word hc hd => exact .inr ⟨_, _, _, rfl, word, hc, hd⟩
  | raised op e he => exact absurd hclear e.err_ne_none
  | unscheduled word => exact absurd hclear (Cause.err_ne_none .config)
  | kept op | latched word hphase => exact absurd hclear hset
  | absorbed word hphase => exact absurd ((Block.takeBytes_err _ b).symm.trans hclear) hset

theorem Block.Effect.enters_absorbing (hout : b.phase ≠ .absorbing) (hin : b'.phase = .absorbing) :
    IsGoodInit op := by
  cases h with
  | started word hc hd => exact ⟨_, _, _, rfl, word, hc, hd⟩
  | raised op e he => exact absurd ((Cause.phaseAfter_of_running (.inl hin)).symm.trans hin) hout
  | kept op => exact absurd hin hout
  | absorbed word hphase | latched word hphase => exact absurd hphase hout
  | reset | unscheduled word => contradiction

theorem Block.Effect.changes_schedule (hne : b'.cr ≠ b.cr ∨ b'.dr ≠ b.dr) : op = .reset ∨ IsGoodInit op := by
  cases h with
  | reset => exact .inl rfl
  | started word hc hd => exact .inr ⟨_, _, _, rfl, word, hc, hd⟩
  | kept op | raised op e he | unscheduled word | absorbed word hphase | latched word hphase => simp at hne

theorem Block.Effect.changes_lanes (hne : b'.lanes ≠ b.lanes) : op = .reset ∨ IsGoodInit op ∨
    (b.phase = .absorbing ∧ ∃ tx, op = .access (.command tx) ∧ (decodeCommand tx = .instr .finish ∨
      ∃ n x, decodeCommand tx = .instr (.write n x) ∧ 8 ≤ b.plen.toNat + n.toNat)) := by
  cases h with
  | reset => exact .inl rfl
  | started word hc hd => exact .inr (.inl ⟨_, _, _, rfl, word, hc, hd⟩)
  | kept op | raised op e he | unscheduled word => exact absurd rfl hne
  | latched word hphase => exact .inr (.inr ⟨hphase, _, rfl, .inl word⟩)
  | @absorbed tx n x word hphase =>
    have hfull : 8 ≤ b.plen.toNat + n.toNat := by
      by_contra hlt
      exact hne (Block.takeBytes_lanes_of_lt _ b (by simpa using hlt))
    exact .inr (.inr ⟨hphase, _, rfl, .inr ⟨n, x, word, hfull⟩⟩)

theorem Block.Effect.changes_result (hne : b'.result ≠ b.result) :
    (op = .reset ∧ b'.result = 0) ∨ ∃ tx, op = .access (.command tx) ∧
      ((∃ c d k0 k1, decodeCommand tx = .instr (.init c d k0 k1) ∧ b'.result = 0) ∨
        (decodeCommand tx = .instr .finish ∧ b.phase = .absorbing ∧ b'.phase = .finished ∧
          b'.result = b'.lanes.digest)) := by
  cases h with
  | reset => exact .inl ⟨rfl, rfl⟩
  | started word hc hd => exact .inr ⟨_, rfl, .inl ⟨_, _, _, _, word, rfl⟩⟩
  | unscheduled word => exact .inr ⟨_, rfl, .inl ⟨_, _, _, _, word, rfl⟩⟩
  | latched word hphase => exact .inr ⟨_, rfl, .inr ⟨word, hphase, rfl, rfl⟩⟩
  | kept op | raised op e he => exact absurd rfl hne
  | absorbed word hphase => exact absurd (Block.takeBytes_result _ b) hne

theorem Block.Effect.leaves_unkeyed (hphase : b.phase = .unkeyed) (hop : ¬IsGoodInit op) : b'.phase = .unkeyed := by
  cases h with
  | started word hc hd => exact absurd ⟨_, _, _, rfl, word, hc, hd⟩ hop
  | kept op => exact hphase
  | raised op e he => rw [Block.raise_phase, hphase]; cases e <;> rfl
  | reset | unscheduled word => rfl
  | absorbed word habs | latched word habs => exact absurd (hphase.symm.trans habs) (by decide)

end

/-! ### The statements -/

/-- Settles O34: ERR changed, so an operation ran. -/
theorem onlyInitOrResetClearsErr : Obligations.OnlyInitOrResetClearsErr := by
  intro s t h hclear hset
  obtain ⟨op, rest, hops, heffect⟩ := step_effect_of_ne h fun e => hset (e ▸ hclear)
  exact ⟨op, rest, hops, heffect.clears_err hset hclear⟩

/-- Settles O35: PHASE changed, so an operation ran. -/
theorem onlyInitEntersAbsorbing : Obligations.OnlyInitEntersAbsorbing := by
  intro s t h hin hout
  obtain ⟨op, rest, hops, heffect⟩ := step_effect_of_ne h fun e => hout (e ▸ hin)
  exact ⟨op, rest, hops, heffect.enters_absorbing hout hin⟩

/-- Settles O36: the schedule changed, so an operation ran. -/
theorem scheduleIsFixedPerInstance : Obligations.ScheduleIsFixedPerInstance := by
  intro s t h hne
  obtain ⟨op, rest, hops, heffect⟩ := step_effect_of_ne h fun e => by simp [e] at hne
  exact ⟨op, rest, hops, heffect.changes_schedule hne⟩

/-- Settles O37: the lanes changed, so an operation ran. -/
theorem onlyTheDatapathWritesLanes : Obligations.OnlyTheDatapathWritesLanes := by
  intro s t h hne
  obtain ⟨op, rest, hops, heffect⟩ := step_effect_of_ne h fun e => hne (congrArg Block.lanes e)
  exact ⟨op, rest, hops, heffect.changes_lanes hne⟩

/-- Settles O38: RESULT changed, so an operation ran. -/
theorem resultIsWrittenByFinishAndCleared : Obligations.ResultIsWrittenByFinishAndCleared := by
  intro s t h hne
  obtain ⟨op, rest, hops, heffect⟩ := step_effect_of_ne h fun e => hne (congrArg Block.result e)
  exact ⟨op, rest, hops, heffect.changes_result hne⟩

theorem step_ops {s t : State} (h : step s = .next t) : t.ops = s.ops.tail := by
  rcases step_cases s t h with ⟨hops, rfl⟩ | ⟨_, _, _, hops, rfl, _⟩ | ⟨_, _, hops, rfl⟩ | ⟨_, hops, rfl⟩
  all_goals rw [hops]; rfl

/-- Settles O41: the build is kept and the queue loses its head in every case of the step; only a read logs. -/
theorem stepKeepsTheBuildAndTakesOneOperation : Obligations.StepKeepsTheBuildAndTakesOneOperation := by
  refine fun s t h => ⟨step_cfg s t h, step_ops h, ?log⟩
  rcases step_cases s t h with ⟨hops, rfl⟩ | ⟨_, _, _, hops, rfl, _⟩ | ⟨a, rest, hops, rfl⟩ | ⟨_, hops, rfl⟩
  case inr.inr.inl => exact .inl ⟨a, rest, hops, rfl⟩
  all_goals exact .inr ⟨fun a rest e => by simp [hops] at e, rfl⟩

theorem step_leaves_unkeyed {s t : State} (h : step s = .next t) (hphase : s.block.phase = .unkeyed)
    (hops : ∀ op ∈ s.ops, ¬IsGoodInit op) : t.block.phase = .unkeyed := by
  rcases step_effect h with hkept | ⟨op, rest, hcons, heffect⟩
  · rw [hkept, hphase]
  · exact heffect.leaves_unkeyed hphase (hops op (hcons ▸ List.mem_cons_self))

/-- Settles O39, by induction on the number of steps: each keeps the phase and takes from the queue alone. -/
theorem unkeyedUntilASuccessfulInit : Obligations.UnkeyedUntilASuccessfulInit := by
  intro k s t hphase hops hrun
  induction k generalizing s with
  | zero =>
    obtain rfl : s = t := Host.Outcome.next.inj hrun
    exact hphase
  | succ k ih =>
    obtain ⟨u, hstep⟩ := step_total s
    rw [run_succ k s u hstep] at hrun
    refine ih u (step_leaves_unkeyed hstep hphase hops) (fun op hop => ?_) hrun
    rw [step_ops hstep] at hop
    exact hops op (List.mem_of_mem_tail hop)

/-- Settles O45: a step runs the operation it takes from the queue, and a table word put in front is that operation. -/
theorem stepRunsTheDecodedInstruction : Obligations.StepRunsTheDecodedInstruction := by
  refine ⟨fun s p rest i hops hdec => ?instr, fun s p rest why hops hdec => ?illegal, step_nil,
    fun s nbits w i hword => ?word⟩
  case instr => exact (step_cons s _ rest hops).trans (accept_instr p i _ hdec)
  case illegal => exact (step_cons s _ rest hops).trans (accept_illegal p why _ hdec)
  case word =>
    have hdec : decode (tableAccess nbits w) = .instr i := by
      unfold decodeTableWord at hword
      split at hword
      · next hdec => rw [hdec, Option.some.inj hword]
      · contradiction
    exact (step_cons (s.withFetchWord nbits w) _ s.ops rfl).trans (accept_instr _ i s hdec)

end Sys2Proof.Machine
end

section
/-! The invariants of a block (10_state R31): each shared operation keeps them, so every effect of a host
operation does. -/

namespace Sys2Proof.Machine

theorem Block.inv_reset : Block.reset.Inv := by decide

/-- Settles O43: the build is no part of the block. -/
theorem resetHasTheInvariants : Obligations.ResetHasTheInvariants := fun _ => Block.inv_reset

/-- An error keeps them, when RESULT is hidden already should it be INIT's. -/
theorem Block.Inv.raise {b : Block} (h : b.Inv) (e : Cause) (hresult : e = .config → b.result = 0) :
    (b.raise e).Inv := by
  obtain ⟨hclean, hhidden, hschedule, hlen⟩ := h
  refine ⟨hclean, fun hphase => ?hidden, fun hphase => ?schedule, fun hphase => ?len⟩
  case hidden =>
    by_cases he : e = .config
    · exact hresult he
    · exact hhidden fun hfin => hphase ((congrArg e.phaseAfter hfin).trans (e.phaseAfter_finished he))
  case schedule => exact hschedule ((Cause.phaseAfter_of_running (.inl hphase)).symm.trans hphase)
  case len => exact hlen (Cause.phaseAfter_of_running hphase ▸ hphase)

theorem toNat_schedule_of_ne_zero (c : Nibble) (h : c ≠ 0) : 1 ≤ c.toNat ∧ c.toNat ≤ 15 := by bv_omega

theorem Block.inv_freshBlock (c d : Nibble) (key0 key1 : Word) (hc : c ≠ 0) (hd : d ≠ 0) :
    (freshBlock c d key0 key1).Inv :=
  ⟨rfl, fun _ => rfl, fun _ => ⟨toNat_schedule_of_ne_zero c hc, toNat_schedule_of_ne_zero d hd⟩,
    fun _ => rfl⟩

/-- The byte loop leaves in BUF no more bytes than it counts in PLEN. -/
theorem Block.BufClean.takeBytes {b : Block} (h : b.BufClean) (xs : List Byte) : (b.takeBytes xs).BufClean := by
  let pend := operandBytes b.plen.toNat b.buf
  have hplen : (b.takeBytes xs).plen.toNat = (tailBytes (pend ++ xs)).length := by
    rw [Block.takeBytes_plen, length_tailBytes, List.length_append, length_operandBytes]
  obtain ⟨_, hbuf⟩ := b.takeBytes_stream xs pend (le64_operandBytes_of_clean _ _ h).symm (by simp [pend])
  rw [Block.BufClean, hbuf, hplen]
  exact le64_clean _ _ le_rfl

/-- The byte loop counts LEN and PLEN up together; 8 divides the modulus of each. -/
theorem Block.takeBytes_len_mod (xs : List Byte) (b : Block) (h : b.len.toNat % 8 = b.plen.toNat) :
    (b.takeBytes xs).len.toNat % 8 = (b.takeBytes xs).plen.toNat := by
  rw [Block.takeBytes_len, Block.takeBytes_plen, BitVec.toNat_add, BitVec.toNat_ofNat]
  omega

theorem Block.Inv.takeBytes {b : Block} (h : b.Inv) (xs : List Byte) : (b.takeBytes xs).Inv := by
  obtain ⟨hclean, hhidden, hschedule, hlen⟩ := h
  refine ⟨hclean.takeBytes xs, ?_, ?_, fun hphase => Block.takeBytes_len_mod xs b (hlen ?_)⟩
  · simpa [Block.ResultHidden] using hhidden
  · simpa [Block.ScheduleLegal] using hschedule
  · simpa using hphase

theorem Block.Inv.latch {b : Block} (h : b.Inv) (hphase : b.phase = .absorbing) (v : Lanes) (w : Word) :
    ({ b.setLanes v with result := w, phase := .finished } : Block).Inv := by
  obtain ⟨hclean, _, _, hlen⟩ := h
  exact ⟨hclean, fun hne => absurd rfl hne, fun habs => by contradiction, fun _ => hlen (.inl hphase)⟩

theorem Block.Inv.clearResult {b : Block} (h : b.Inv) : ({ b with result := 0 } : Block).Inv := by
  obtain ⟨hclean, _, hschedule, hlen⟩ := h
  exact ⟨hclean, fun _ => rfl, hschedule, hlen⟩

theorem Block.Inv.effect {b b' : Block} {op : HostOp} (h : b.Inv) (heffect : b.Effect op b') : b'.Inv := by
  cases heffect with
  | kept op => exact h
  | raised op e he => exact h.raise e fun hconfig => absurd hconfig he
  | reset => exact Block.inv_reset
  | started word hc hd => exact Block.inv_freshBlock _ _ _ _ hc hd
  | unscheduled word => exact h.clearResult.raise .config fun _ => rfl
  | absorbed word hphase => exact h.takeBytes _
  | latched word hphase => exact h.latch hphase _ _

/-- Settles O44: a step keeps the block or has an effect of its operation, and every effect keeps the invariants. -/
theorem everyStepKeepsTheInvariants : Obligations.EveryStepKeepsTheInvariants := by
  intro s t hinv h
  rcases step_effect h with hkept | ⟨op, rest, _, heffect⟩
  · rwa [hkept]
  · exact hinv.effect heffect

end Sys2Proof.Machine
end

section
/-! WRITE's byte loop (41_commands R71; 20_memory section 5): as a fold over byte positions, at its boundaries, and over
consecutive operands; AbsorbBlock, which it calls (40 section 4). -/

namespace Sys2Proof.Machine

/-! ### AbsorbBlock -/

/-- Settles O6: AbsorbBlock writes the lanes alone, with its rounds as iterates; the example by evaluation. -/
theorem absorbBlockXorsAroundTheRounds : Obligations.AbsorbBlockXorsAroundTheRounds := by
  refine ⟨fun b m => ?block, by decide⟩
  rw [Block.absorbBlock_eq, absorbLanes_eq]
  rfl

/-! ### The loop as a fold -/

theorem Block.takeBytes_eq_foldl (xs : List Byte) (b : Block) :
    b.takeBytes xs = xs.foldl (fun c x => c.takeByte x) b := by
  induction xs generalizing b with
  | nil => rfl
  | cons x xs ih => exact ih (b.takeByte x)

theorem Block.takeByte_eq (x : Byte) (b : Block) : b.takeByte x =
    if b.plen.toNat + 1 = 8 then { b.absorbBlock (b.filled x) with buf := 0, plen := 0, len := b.len + 1 }
    else { b with buf := b.filled x, plen := BitVec.ofNat 3 (b.plen.toNat + 1), len := b.len + 1 } := by
  have hplen : b.plen + 1 = BitVec.ofNat 3 (b.plen.toNat + 1) := by
    rw [BitVec.ofNat_add, BitVec.ofNat_toNat, BitVec.setWidth_eq]
    rfl
  rw [← hplen]
  rfl

/-- Settles O16: the loop is a fold over the positions of the operand's bytes; outside ABSORBING, WRITE raises its
error; a count above 8 has a word that R53 lists. -/
theorem writeTakesBytesInOrder : Obligations.WriteTakesBytesInOrder := by
  refine ⟨fun n x s hn hphase => ?loop, fun n x s hn hphase => ?refused, fun n x y s hn => ?illegal⟩
  case loop =>
    rw [exec_write_absorbing n x s hn hphase, Block.takeBytes_eq_foldl, operandBytes, List.foldl_map]
    simp only [Block.takeByte_eq]
    rfl
  case refused => rw [exec_write n x s hn, Block.write_refused n.toNat x s.block hphase]; rfl
  case illegal =>
    have hword : ¬ IsLegalWord (commandWord 0 0 n 2) :=
      (not_isLegalWord_iff _).2 (.inr (.inr (.inr (.inr (by simpa using Nat.succ_le_of_lt hn)))))
    obtain ⟨why, hdec⟩ := (decodeCommand_illegal_exists_iff ⟨commandWord 0 0 n 2, x, y⟩).2 hword
    exact accept_command_illegal _ why s hdec

/-! ### Boundary cases -/

theorem lowBytes_eight (x : Word) : lowBytes 8 x = x := BitVec.and_allOnes

/-- Only the first byte of an operand fits into the last place of the block. -/
theorem lowBytes_shiftLeft_last (n : Nat) (x : Word) (hn : 1 ≤ n) : lowBytes n x <<< 56 = x <<< 56 := by
  apply BitVec.eq_of_getLsbD_eq
  intro i hi
  simp only [BitVec.getLsbD_shiftLeft, lowBytes, BitVec.getLsbD_and, getLsbD_lowMask n (i - 56) (by omega)]
  by_cases h : i < 56
  · simp [h]
  · have hlow : i - 56 < 8 * n := by omega
    simp [hlow]

/-- A single byte leaves nothing for the next block. -/
theorem lowBytes_one_shiftRight (x : Word) : lowBytes 1 x >>> 8 = 0 := by
  rw [← le64_operandBytes]
  exact le64_clean _ 1 (by simp)

/-- A full operand into an empty buffer is a block of its own. -/
theorem Block.takeBytes_aligned (x : Word) (b : Block) (hc : b.BufClean) (hp : b.plen = 0) :
    b.takeBytes (operandBytes 8 x) = { b.absorbBlock x with len := b.len + 8 } := by
  have hbuf : b.buf = 0 := b.buf_eq_zero_of_plen hc hp
  rw [Block.takeBytes_of_ge 8 x b le_rfl hc (by simp [hp]), lowBytes_eight]
  simp [Block.absorbBlock_eq, Block.setLanes, BitVec.ushiftRight_eq_zero, hbuf, hp]

/-- With seven bytes pending the first byte completes the block and the others are carried. -/
theorem Block.takeBytes_last (n : Nat) (x : Word) (b : Block) (h1 : 1 ≤ n) (h8 : n ≤ 8) (hc : b.BufClean)
    (hp : b.plen = 7) :
    b.takeBytes (operandBytes n x) = { b.absorbBlock (b.buf ||| (x <<< 56)) with
      buf := lowBytes n x >>> 8, plen := BitVec.ofNat 3 (n - 1), len := b.len + BitVec.ofNat 64 n } := by
  have hplen : b.plen.toNat = 7 := by rw [hp]; rfl
  have hcount : 7 + n - 8 = n - 1 := by omega
  rw [Block.takeBytes_of_ge n x b h8 hc (by omega), hplen, hcount, lowBytes_shiftLeft_last n x h1]

/-- Settles O18: each case is the byte loop on an empty buffer, on a buffer with one place left, or with one byte. -/
theorem writeBoundaryCases : Obligations.WriteBoundaryCases := by
  intro x s hphase hc
  have answer (n : Nibble) (hn : n.toNat ≤ 8) (b : Block) (hloop : s.block.takeBytes (operandBytes n.toNat x) = b) :
      exec (.write n x) s = .next (s.setBlock b) := by rw [exec_write_absorbing n x s hn hphase, hloop]
  refine ⟨answer 0 (by decide) _ rfl, fun hp => ?aligned, fun hp => ?last, fun hp => ?carry, fun hl => ?wrap⟩
  case aligned => exact answer 8 (by decide) _ (Block.takeBytes_aligned x s.block hc hp)
  case last =>
    have hloop := Block.takeBytes_last 1 x s.block (by decide) (by decide) hc hp
    rw [lowBytes_one_shiftRight] at hloop
    exact answer 1 (by decide) _ hloop
  case carry =>
    have hloop := Block.takeBytes_last 8 x s.block (by decide) (by decide) hc hp
    have hplen : BitVec.ofNat 3 (8 - 1) = (s.block.absorbBlock (s.block.buf ||| (x <<< 56))).plen := hp.symm
    rw [lowBytes_eight, hplen] at hloop
    exact answer 8 (by decide) _ hloop
  case wrap =>
    refine ⟨_, answer 1 (by decide) _ rfl, ?_⟩
    rw [State.setBlock_block, Block.takeBytes_len, hl, length_operandBytes]
    rfl

/-! ### Consecutive operands -/

/-- Settles O21: the operand's bytes are those of its two parts in order, and the loop runs over them in order. -/
theorem twoWritesAreOneOfTheConcatenation : Obligations.TwoWritesAreOneOfTheConcatenation := by
  intro n m x s hphase hsum
  have hadd : (n + m).toNat = n.toNat + m.toNat := by rw [BitVec.toNat_add]; omega
  refine ⟨_, exec_write_absorbing n x s (by omega) hphase, ?_⟩
  rw [exec_write_absorbing m _ _ (by omega) (by simpa using hphase),
    exec_write_absorbing (n + m) x s (by omega) hphase, hadd, operandBytes_add, Block.takeBytes_append]
  rfl

/-! ### A stream of operands -/

/-- Settles O23: INIT and the WRITEs leave the byte loop's block over the stream, which holds its whole blocks and
tail. -/
theorem pendingBytesAreTheStreamTail : Obligations.PendingBytesAreTheStreamTail := by
  intro c d k0 k1 chunks s hc hd hlen
  let fresh := freshBlock c d k0 k1
  obtain ⟨hlanes, hbuf⟩ := takeBytes_freshBlock c d k0 k1 chunks.flatten
  have hplen : (fresh.takeBytes chunks.flatten).plen.toNat = chunks.flatten.length % 8 := by
    rw [Block.takeBytes_plen]
    exact congrArg (· % 8) (Nat.zero_add _)
  have hcount : (fresh.takeBytes chunks.flatten).len = BitVec.ofNat 64 chunks.flatten.length := by
    rw [Block.takeBytes_len]
    exact BitVec.zero_add _
  have hrun := runOps_chunks chunks [] (s.setBlock fresh) rfl hlen
  rw [List.append_nil] at hrun
  exact ⟨_, (runOps_init c d k0 k1 _ s hc hd).trans hrun, Block.takeBytes_phase _ _, Block.takeBytes_err _ _, hlanes,
    hbuf, hplen, hcount, Block.takeBytes_len_mod _ fresh rfl⟩

end Sys2Proof.Machine
end

section
/-! STATUS as a number (42_readout R81): its six fields are digits, so each one reads back. Commands and the parameter
that STATUS shows (93 I1). -/

namespace Sys2Proof.Machine

/-! ### Fields packed into a word -/

/-- A field above a value that ends before it. -/
theorem toNat_or_shiftLeft (x y : Word) (i : Nat) (hx : x.toNat < 2 ^ i) (hy : y.toNat * 2 ^ i < 2 ^ 64) :
    (x ||| (y <<< i)).toNat = x.toNat + 2 ^ i * y.toNat := by
  rw [BitVec.toNat_or, BitVec.toNat_shiftLeft, Nat.shiftLeft_eq, Nat.mod_eq_of_lt hy, ← Nat.shiftLeft_eq, Nat.or_comm,
    ← Nat.shiftLeft_add_eq_or_of_lt hx, Nat.shiftLeft_eq, Nat.mul_comm, Nat.add_comm]

/-- A field read out of a word is a digit of its number. -/
theorem extractLsb'_eq_of_digit {n k : Nat} (w : BitVec n) (f : BitVec k) (lo : Nat)
    (h : w.toNat / 2 ^ lo % 2 ^ k = f.toNat) : w.extractLsb' lo k = f := by
  apply BitVec.eq_of_toNat_eq
  rw [BitVec.extractLsb'_toNat, Nat.shiftRight_eq_div_pow, h]

/-- R81's layout, for any fields that fit their places. -/
theorem toNat_statusLayout (p v r e c d : Word) (hp : p.toNat < 4) (hv : v.toNat < 2) (hr : r.toNat < 2)
    (he : e.toNat < 16) (hc : c.toNat < 16) (hd : d.toNat < 16) :
    (p ||| (v <<< 2) ||| (r <<< 3) ||| (e <<< 4) ||| (c <<< 8) ||| (d <<< 12)).toNat =
      p.toNat + 4 * v.toNat + 8 * r.toNat + 16 * e.toNat + 256 * c.toNat + 4096 * d.toNat := by
  have h2 := toNat_or_shiftLeft p v 2 hp (by omega)
  have h3 := toNat_or_shiftLeft _ r 3 (by omega : (p ||| (v <<< 2)).toNat < 2 ^ 3) (by omega)
  have h4 := toNat_or_shiftLeft _ e 4 (by omega : (p ||| (v <<< 2) ||| (r <<< 3)).toNat < 2 ^ 4) (by omega)
  have h8 := toNat_or_shiftLeft _ c 8
    (by omega : (p ||| (v <<< 2) ||| (r <<< 3) ||| (e <<< 4)).toNat < 2 ^ 8) (by omega)
  have h12 := toNat_or_shiftLeft _ d 12
    (by omega : (p ||| (v <<< 2) ||| (r <<< 3) ||| (e <<< 4) ||| (c <<< 8)).toNat < 2 ^ 12) (by omega)
  omega

/-! ### STATUS -/

section
variable (cfg : Config) (b : Block)

theorem toNat_statusWord : (statusWord cfg b).toNat =
    b.phase.code.toNat + 4 * b.resultValid.toNat + 8 * cfg.rawStateAccess.toNat + 16 * b.err.code.toNat +
      256 * b.cr.toNat + 4096 * b.dr.toNat := by
  have widen {k : Nat} (hk : k ≤ 64) (f : BitVec k) : (f.setWidth 64).toNat = f.toNat := BitVec.toNat_setWidth_of_le hk
  rw [statusWord, toNat_statusLayout]
  case hp => rw [widen (by decide)]; exact b.phase.code.isLt
  case hv | hr => rw [widen (by decide)]; exact BitVec.isLt _
  case he => rw [widen (by decide)]; exact b.err.code.isLt.trans (by decide)
  case hc | hd => rw [widen (by decide)]; exact BitVec.isLt _
  simp only [widen (by decide : 1 ≤ 64), widen (by decide : 2 ≤ 64), widen (by decide : 4 ≤ 64), BitVec.toNat_ofBool]

/-- Each field is the digit of R81's number at its place, and nothing stands above DR. -/
theorem statusWord_fields :
    (statusWord cfg b).extractLsb' 0 2 = b.phase.code ∧
    (statusWord cfg b).extractLsb' 4 4 = b.err.code.setWidth 4 ∧
    (statusWord cfg b).extractLsb' 8 4 = b.cr ∧
    (statusWord cfg b).extractLsb' 12 4 = b.dr ∧
    (statusWord cfg b).toNat < 2 ^ 16 := by
  have hphase := b.phase.code.isLt
  have hvalid := b.resultValid.toNat_lt
  have hraw := cfg.rawStateAccess.toNat_lt
  have herr := b.err.code.isLt
  have hcr := b.cr.isLt
  have hdr := b.dr.isLt
  have herr4 : (b.err.code.setWidth 4).toNat = b.err.code.toNat := BitVec.toNat_setWidth_of_le (by decide)
  refine ⟨extractLsb'_eq_of_digit _ _ 0 ?_, extractLsb'_eq_of_digit _ _ 4 ?_, extractLsb'_eq_of_digit _ _ 8 ?_,
    extractLsb'_eq_of_digit _ _ 12 ?_, ?_⟩
  all_goals rw [toNat_statusWord]; omega

/-- RESULT_VALID is bit 2 of STATUS. -/
theorem statusWord_resultValid : (statusWord cfg b).getLsbD 2 = b.resultValid := by
  simp [statusWord]

end

/-- Settles O26: the fields are the digits of STATUS's number, and each code is its table's. -/
theorem statusFieldsReadBack : Obligations.StatusFieldsReadBack := by
  refine ⟨fun cfg b => ?fields, ⟨rfl, rfl, rfl, rfl⟩, ⟨rfl, rfl, rfl, rfl⟩⟩
  obtain ⟨hphase, herr, hcr, hdr, hlt⟩ := statusWord_fields cfg b
  refine ⟨hphase.trans ?phase, ?valid, statusWord_rawEn cfg b, herr.trans ?err, hcr, hdr, ?above,
    (toNat_statusWord cfg b).trans ?number⟩
  case phase => cases b.phase <;> rfl
  case valid => rw [statusWord_resultValid, Block.resultValid, decide_eq_true_iff]
  case err => cases b.err <;> rfl
  case above =>
    apply BitVec.eq_of_toNat_eq
    rw [BitVec.toNat_ushiftRight, Nat.shiftRight_eq_div_pow, Nat.div_eq_of_lt hlt]
    rfl
  case number =>
    have hvalid : 4 * b.resultValid.toNat = if b.phase = .finished then 4 else 0 := by
      cases hphase : b.phase <;> simp [Block.resultValid, hphase]
    have hraw : 8 * cfg.rawStateAccess.toNat = if cfg.rawStateAccess then 8 else 0 := by
      cases cfg.rawStateAccess <;> rfl
    rw [hvalid, hraw]

/-- Settles O30: what a command does to the block is a function of the block and of its word's decoding. -/
theorem noCommandReadsTheParameter : Obligations.NoCommandReadsTheParameter :=
  fun t s cfg => ⟨_, accept_command_eq t s, accept_command_eq t { s with cfg := cfg }⟩

end Sys2Proof.Machine
end

section
/-! Frames (41_commands sections 2 to 5; 42_readout section 1): what each instruction leaves unchanged. -/

namespace Sys2Proof.Machine

/-! ### WRITE and FINISH on the block -/

section
variable (b : Block)

/-- What WRITE keeps in every phase. -/
theorem Block.write_keeps (n : Nat) (x : Word) :
    (b.write n x).cr = b.cr ∧ (b.write n x).dr = b.dr ∧ (b.write n x).result = b.result := by
  by_cases h : b.phase = .absorbing
  · rw [Block.write_absorbing n x b h]
    exact ⟨Block.takeBytes_cr _ b, Block.takeBytes_dr _ b, Block.takeBytes_result _ b⟩
  · rw [Block.write_refused n x b h]
    exact ⟨rfl, rfl, rfl⟩

/-- A WRITE that completes no block keeps the lanes. -/
theorem Block.write_lanes_of_lt (n : Nat) (x : Word) (h : b.plen.toNat + n < 8) : (b.write n x).lanes = b.lanes := by
  by_cases hphase : b.phase = .absorbing
  · rw [Block.write_absorbing n x b hphase, Block.takeBytes_lanes_of_lt _ b (by simpa using h)]
  · rw [Block.write_refused n x b hphase, Block.raise_lanes]

/-- What FINISH keeps in every phase. -/
theorem Block.finish_keeps : b.finish.buf = b.buf ∧ b.finish.plen = b.plen ∧ b.finish.len = b.len ∧
    b.finish.cr = b.cr ∧ b.finish.dr = b.dr := by
  by_cases h : b.phase = .absorbing
  · rw [Block.finish_absorbing b h]
    exact ⟨rfl, rfl, rfl, rfl, rfl⟩
  · rw [Block.finish_refused b h]
    exact ⟨rfl, rfl, rfl, rfl, rfl⟩

end

/-! ### One instruction -/

/-- Every instruction but RD changes the block alone. -/
theorem exec_eq_setBlock (i : Instr) (s : State) (hrd : ∀ a, i ≠ .rd a) : ∃ b, exec i s = .next (s.setBlock b) := by
  cases i with
  | nop => exact ⟨s.block, exec_nop s⟩
  | init c d key0 key1 => exact ⟨_, exec_init c d key0 key1 s⟩
  | write n x =>
    by_cases hn : n.toNat ≤ 8
    · exact ⟨_, exec_write n x s hn⟩
    · exact ⟨_, exec_write_over n x s hn⟩
  | finish => exact ⟨_, exec_finish s⟩
  | rd a => exact absurd rfl (hrd a)

theorem exec_host {i : Instr} {s t : State} (h : exec i s = .next t) :
    t.cfg = s.cfg ∧ t.ops = s.ops ∧ ((∀ a, i ≠ .rd a) → t.reads = s.reads) := by
  by_cases hrd : ∀ a, i ≠ .rd a
  · obtain ⟨b, hb⟩ := exec_eq_setBlock i s hrd
    obtain rfl : s.setBlock b = t := Host.Outcome.next.inj (hb.symm.trans h)
    exact ⟨rfl, rfl, fun _ => rfl⟩
  · obtain ⟨a, rfl⟩ : ∃ a, i = .rd a := by simpa using hrd
    obtain rfl : s.logRead (readReg s.cfg a s.block) = t := Host.Outcome.next.inj ((exec_rd a s).symm.trans h)
    exact ⟨rfl, rfl, fun hne => absurd rfl (hne a)⟩

/-- The block of an answer that is known otherwise. -/
theorem block_of_exec {i : Instr} {s t u : State} (h : exec i s = .next t) (hu : exec i s = .next u) :
    t.block = u.block := congrArg State.block (Host.Outcome.next.inj (h.symm.trans hu))

theorem exec_nop_rd_block {i : Instr} {s t : State} (hi : i = .nop ∨ ∃ a, i = .rd a) (h : exec i s = .next t) :
    t.block = s.block := by
  rcases hi with rfl | ⟨a, rfl⟩
  · exact block_of_exec h (exec_nop s)
  · exact (block_of_exec h (exec_rd a s)).trans (State.logRead_block _ s)

/-- Settles O40: the host's side for all instructions at once; the block by what each operation on it keeps. -/
theorem instructionFrames : Obligations.InstructionFrames := by
  intro i s t h
  obtain ⟨hcfg, hops, hreads⟩ := exec_host h
  refine ⟨hcfg, hops, hreads, fun hi => exec_nop_rd_block hi h, ?write, ?finish, ?init⟩
  case write =>
    rintro n x rfl
    by_cases hn : n.toNat ≤ 8
    · rw [block_of_exec h (exec_write n x s hn), State.setBlock_block]
      obtain ⟨hcr, hdr, hresult⟩ := s.block.write_keeps n.toNat x
      refine ⟨hcr, hdr, hresult, fun _ => s.block.write_phase n.toNat x,
        fun _ habs => (s.block.write_err n.toNat x).trans (if_pos habs), fun hrefused => ?_,
        s.block.write_lanes_of_lt n.toNat x⟩
      rw [Block.write_refused n.toNat x s.block (hrefused.resolve_left (Nat.not_lt.2 hn))]
      exact ⟨rfl, rfl, rfl, rfl⟩
    · rw [block_of_exec h (exec_write_over n x s hn), State.setBlock_block]
      exact ⟨rfl, rfl, rfl, fun h8 => absurd h8 hn, fun h8 => absurd h8 hn, fun _ => ⟨rfl, rfl, rfl, rfl⟩, fun _ => rfl⟩
  case finish =>
    rintro rfl
    rw [block_of_exec h (exec_finish s), State.setBlock_block]
    obtain ⟨hbuf, hplen, hlen, hcr, hdr⟩ := s.block.finish_keeps
    refine ⟨hbuf, hplen, hlen, hcr, hdr, fun habs => s.block.finish_err.trans (if_pos habs), fun hrefused => ?_⟩
    rw [Block.finish_refused s.block hrefused]
    exact ⟨rfl, rfl, rfl⟩
  case init =>
    rintro c d k0 k1 rfl hbad
    rw [block_of_exec h (exec_init c d k0 k1 s), State.setBlock_block, Block.construct_bad c d k0 k1 s.block hbad]
    exact ⟨rfl, rfl, rfl, rfl, rfl, rfl⟩

end Sys2Proof.Machine
end

section
/-! The cost measure (70_reset_and_hazards R110): the meter's counts are the table's, for one instruction and for a
message. -/

namespace Sys2Proof.Machine

/-! ### The table's bounds -/

theorem sipRoundCount_le (i : Instr) (b : Block) : sipRoundCount i b ≤ 30 := by
  have hcr := b.cr.isLt
  have hdr := b.dr.isLt
  cases i with
  | nop | init c d key0 key1 | rd a => exact Nat.zero_le _
  | write n x | finish => rw [sipRoundCount]; split <;> omega

theorem byteStepCount_le (i : Instr) (b : Block) : byteStepCount i b ≤ 8 := by
  cases i with
  | nop | init c d key0 key1 | finish | rd a => exact Nat.zero_le _
  | write n x => rw [byteStepCount]; split <;> omega

/-! ### One instruction -/

/-- A meter after some more rounds and byte steps. -/
def Metered.after (m : Metered) (b : Block) (rounds steps : Nat) : Metered :=
  { block := b, sipRounds := m.sipRounds + rounds, byteSteps := m.byteSteps + steps }

/-- An operand completes at most one block: the table's condition counts it. -/
theorem completedBlocks_mul (p n r : Nat) (hp : p < 8) (hn : n ≤ 8) :
    (p + n) / 8 * r = if 8 ≤ p + n then r else 0 := by
  split
  · next hfull =>
    have hone : (p + n) / 8 = 1 := by omega
    rw [hone, Nat.one_mul]
  · next hshort =>
    have hnone : (p + n) / 8 = 0 := by omega
    rw [hnone, Nat.zero_mul]

theorem Metered.exec_write_spec (n : Nibble) (x : Word) (m : Metered) (s : State) (hs : s.block = m.block) :
    ∃ t, Machine.exec (.write n x) s = .next t ∧ m.exec (.write n x) =
      m.after t.block (sipRoundCount (.write n x) s.block) (byteStepCount (.write n x) s.block) := by
  by_cases hn : n.toNat ≤ 8
  · refine ⟨_, Machine.exec_write n x s hn, ?_⟩
    rw [State.setBlock_block, hs]
    by_cases hphase : m.block.phase = .absorbing
    · rw [Metered.exec_write n x m hn hphase, completedBlocks_mul _ _ _ m.block.plen.isLt hn]
      simp only [Metered.after, sipRoundCount, byteStepCount, hphase, hn, true_and, and_self, if_true]
    · rw [Block.write_refused n.toNat x _ hphase]
      simp only [Metered.exec, sipRoundCount, byteStepCount, hphase, hn, if_true, if_false, false_and]
      rfl
  · refine ⟨_, exec_write_over n x s hn, ?_⟩
    rw [State.setBlock_block, hs]
    simp only [Metered.exec, sipRoundCount, byteStepCount, hn, if_false, false_and, and_false]
    rfl

theorem Metered.exec_finish_spec (m : Metered) (s : State) (hs : s.block = m.block) :
    ∃ t, Machine.exec .finish s = .next t ∧ m.exec .finish =
      m.after t.block (sipRoundCount .finish s.block) (byteStepCount .finish s.block) := by
  refine ⟨_, exec_finish s, ?_⟩
  rw [State.setBlock_block, hs]
  by_cases hphase : m.block.phase = .absorbing
  · rw [Block.finish_absorbing _ hphase]
    simp only [Metered.exec, sipRoundCount, hphase, if_true, Metered.finalize_eq]
    rfl
  · rw [Block.finish_refused _ hphase]
    simp only [Metered.exec, sipRoundCount, hphase, if_false]
    rfl

/-- The meter on any instruction: exec's block, and the table's counts. -/
theorem Metered.exec_spec (i : Instr) (m : Metered) (s : State) (hs : s.block = m.block) :
    ∃ t, Machine.exec i s = .next t ∧
      m.exec i = m.after t.block (sipRoundCount i s.block) (byteStepCount i s.block) := by
  cases i with
  | nop => exact ⟨_, exec_nop s, by rw [hs]; rfl⟩
  | init c d key0 key1 => exact ⟨_, exec_init c d key0 key1 s, by rw [hs]; rfl⟩
  | write n x => exact m.exec_write_spec n x s hs
  | finish => exact m.exec_finish_spec s hs
  | rd a => exact ⟨_, exec_rd a s, by rw [State.logRead_block, hs]; rfl⟩

/-! ### A message -/

/-- The stream bytes of several WRITEs. -/
def operandStream (xs : List (Nibble × Word)) : List Byte := xs.flatMap fun x => operandBytes x.1.toNat x.2

theorem length_operandStream (xs : List (Nibble × Word)) :
    (operandStream xs).length = (xs.map fun x => x.1.toNat).sum := by
  simp [operandStream, List.length_flatMap]

theorem Metered.takeBytes_append (xs ys : List Byte) (m : Metered) :
    m.takeBytes (xs ++ ys) = (m.takeBytes xs).takeBytes ys := by
  induction xs generalizing m with
  | nil => rfl
  | cons x xs ih => exact ih (m.takeByte x)

/-- Metered WRITEs in ABSORBING run the byte loop over their stream. -/
theorem Metered.foldl_exec_write (xs : List (Nibble × Word)) (m : Metered) (hphase : m.block.phase = .absorbing)
    (hn : ∀ x ∈ xs, x.1.toNat ≤ 8) :
    xs.foldl (fun (m : Metered) x => m.exec (.write x.1 x.2)) m = m.takeBytes (operandStream xs) := by
  induction xs generalizing m with
  | nil => rfl
  | cons x xs ih =>
    obtain ⟨hx, hxs⟩ := List.forall_mem_cons.1 hn
    have hfirst : m.exec (.write x.1 x.2) = m.takeBytes (operandBytes x.1.toNat x.2) := by
      simp only [Metered.exec, hx, hphase, if_true]
    have hstill : (m.takeBytes (operandBytes x.1.toNat x.2)).block.phase = .absorbing := by
      rw [Metered.takeBytes_eq, Block.takeBytes_phase, hphase]
    rw [List.foldl_cons, hfirst, ih _ hstill hxs, ← Metered.takeBytes_append]
    rfl

/-- The WRITEs of a program in ABSORBING run the byte loop over their stream. -/
theorem runOps_writes (xs : List (Nibble × Word)) (ops : List HostOp) (s : State) (hphase : s.block.phase = .absorbing)
    (hn : ∀ x ∈ xs, x.1.toNat ≤ 8) :
    runOps ((xs.map fun x => issue (.write x.1 x.2)) ++ ops) s =
      runOps ops (s.setBlock (s.block.takeBytes (operandStream xs))) := by
  induction xs generalizing s with
  | nil => rfl
  | cons x xs ih =>
    obtain ⟨hx, hxs⟩ := List.forall_mem_cons.1 hn
    have hfirst (rest : List HostOp) : runOps (issue (.write x.1 x.2) :: rest) s =
        runOps rest (s.setBlock (s.block.takeBytes (operandBytes x.1.toNat x.2))) :=
      runOps_cons _ rest s _ ((accept_command _ _ _ (decode_writeWord x.1 hx x.2 0)).trans
        (exec_write_absorbing x.1 x.2 _ hx hphase))
    rw [List.map_cons, List.cons_append, hfirst, ih _ (by simpa using hphase) hxs]
    simp only [State.setBlock_block, ← Block.takeBytes_append]
    rfl

/-- The meter on a whole message into an empty buffer, and on its FINISH. -/
theorem Metered.message_spec (xs : List (Nibble × Word)) (s : State) (hphase : s.block.phase = .absorbing)
    (hplen : s.block.plen = 0) (hn : ∀ x ∈ xs, x.1.toNat ≤ 8) :
    (xs.foldl (fun (m : Metered) x => m.exec (.write x.1 x.2)) (Metered.start s.block)).exec .finish =
      { block := (s.block.takeBytes (operandStream xs)).finish
        sipRounds := (operandStream xs).length / 8 * s.block.cr.toNat + s.block.cr.toNat + s.block.dr.toNat
        byteSteps := (operandStream xs).length } := by
  have hstill : (s.block.takeBytes (operandStream xs)).phase = .absorbing := by rw [Block.takeBytes_phase, hphase]
  have hempty : s.block.plen.toNat = 0 := by rw [hplen]; rfl
  rw [Metered.foldl_exec_write xs _ hphase hn, Metered.takeBytes_eq]
  simp only [Metered.exec, Metered.start, hstill, if_true, Metered.finalize_eq, Block.finish_absorbing _ hstill,
    Block.takeBytes_cr, Block.takeBytes_dr, hempty, Nat.zero_add, Nat.add_assoc]

/-- Settles O47: one instruction by the meter's spec and the table's bounds; a message as the byte loop over its stream,
then FINISH. -/
theorem roundCountsAreBounded : Obligations.RoundCountsAreBounded := by
  refine ⟨fun i s => ?one, fun t why s h => ⟨_, accept_command_illegal t why s h, rfl, rfl⟩,
    fun xs s hphase hplen hn => ?message⟩
  case one =>
    obtain ⟨t, hexec, hmeter⟩ := Metered.exec_spec i (Metered.start s.block) s rfl
    have hrounds : ((Metered.start s.block).exec i).sipRounds = sipRoundCount i s.block := by
      rw [hmeter]; exact Nat.zero_add _
    have hsteps : ((Metered.start s.block).exec i).byteSteps = byteStepCount i s.block := by
      rw [hmeter]; exact Nat.zero_add _
    exact ⟨t, hexec, by rw [hmeter]; rfl, hrounds, hrounds ▸ sipRoundCount_le i s.block, hsteps,
      hsteps ▸ byteStepCount_le i s.block⟩
  case message =>
    rw [Metered.message_spec xs s hphase hplen hn, ← length_operandStream]
    exact ⟨⟨_, (runOps_writes xs _ s hphase hn).trans (runOps_finish _), rfl⟩, rfl, rfl⟩

end Sys2Proof.Machine
end

section
/-! The clocked layer over the transaction-level machine (70_reset R103, R107; 42_readout R86). A clock edge either
amounts to one host operation, which brings about the committed state at once, or it only moves a command that is
already committed closer to its completion. -/

namespace Sys2Proof.Machine

/-! ### A completed command -/

theorem accept_eq_completed (t : Transaction) (s : State) : accept (.command t) s = .next (completed t s) := by
  simp only [completed, accept_command_eq]

/-- A command writes the block alone, whatever else the state holds. -/
theorem completed_eq (t : Transaction) (s : State) :
    completed t s = s.setBlock (s.block.afterDecoded (decodeCommand t)) := by
  simp only [completed, accept_command_eq]

theorem completed_setOps (t : Transaction) (ops : List HostOp) (s : State) :
    completed t (s.setOps ops) = (completed t s).setOps ops := by
  simp only [completed_eq, State.setOps_setBlock, State.setOps_block]

/-! ### One edge -/

section
variable {latency : Block → Transaction → Nat} {p : Pins} (hrst : p.rst = false)

theorem Clocked.accepts_of_busy (m : Clocked) (f : InFlight) (h : m.busy = some f) : m.accepts p = false := by
  simp [Clocked.accepts, Clocked.cmdReady, h]

theorem Clocked.cmdReady_of_busy (m : Clocked) (f : InFlight) (h : m.busy = some f) : m.cmdReady p = false := by
  simp [Clocked.cmdReady, h]

/-- R107: an idle block is ready outside reset. -/
theorem Clocked.accepts_idle_iff (m : Clocked) (h : m.busy = none) :
    m.accepts p = true ↔ p.cmdValid = true ∧ p.rst = false := by
  simp [Clocked.accepts, Clocked.cmdReady, h]

theorem Clocked.rst_of_accepts (m : Clocked) (h : m.accepts p = true) : p.rst = false := by
  simp only [Clocked.accepts, Bool.and_eq_true, Bool.not_eq_true'] at h
  exact h.2

include hrst

/-- An edge without a reset amounts to a command exactly when the block accepts one. -/
theorem Clocked.event_of_not_rst (m : Clocked) :
    m.event p = if m.accepts p then some (.access (.command p.tx)) else none := by
  simp [Clocked.event, hrst]

/-- The last edge of a command in flight. -/
theorem Clocked.edge_completes (s : State) (t : Transaction) :
    ({ st := s, busy := some ⟨t, 0⟩ } : Clocked).edge latency p = { st := completed t s, busy := none } := by
  simp [Clocked.edge, hrst]

/-- An earlier edge of a command in flight. -/
theorem Clocked.edge_waits (s : State) (t : Transaction) (k : Nat) :
    ({ st := s, busy := some ⟨t, k + 1⟩ } : Clocked).edge latency p = { st := s, busy := some ⟨t, k⟩ } := by
  simp [Clocked.edge, hrst]

/-- An idle block that is offered nothing holds its state (R102). -/
theorem Clocked.edge_idle (m : Clocked) (hbusy : m.busy = none) (h : m.accepts p = false) : m.edge latency p = m := by
  simp [Clocked.edge, hrst, hbusy, h]

/-- The accepting edge of a command of latency 0 completes it. -/
theorem Clocked.edge_accepts_zero (m : Clocked) (hbusy : m.busy = none) (h : m.accepts p = true)
    (hlat : latency m.st.block p.tx = 0) : m.edge latency p = { st := completed p.tx m.st, busy := none } := by
  simp [Clocked.edge, hrst, hbusy, h, hlat]

/-- The accepting edge of a command of another latency puts it in flight. -/
theorem Clocked.edge_accepts_succ (m : Clocked) (hbusy : m.busy = none) (h : m.accepts p = true) (k : Nat)
    (hlat : latency m.st.block p.tx = k + 1) : m.edge latency p = { st := m.st, busy := some ⟨p.tx, k⟩ } := by
  simp [Clocked.edge, hrst, hbusy, h, hlat]

end

/-! ### The committed state -/

theorem Clocked.committed_idle (m : Clocked) (h : m.busy = none) : m.committed = m.st := by
  simp [Clocked.committed, h]

/-- The command in flight changes the block alone. -/
theorem Clocked.resetBlock_committed (m : Clocked) : m.committed.resetBlock = m.st.resetBlock := by
  unfold Clocked.committed
  split
  · rfl
  · rw [completed_eq]; rfl

/-- An edge that is no host operation leaves the committed state. -/
theorem Clocked.committed_edge_of_none (latency : Block → Transaction → Nat) (p : Pins) (m : Clocked)
    (h : m.event p = none) : (m.edge latency p).committed = m.committed := by
  have hrst : p.rst = false := by
    cases hp : p.rst with
    | false => rfl
    | true => rw [Clocked.event_of_rst hp] at h; contradiction
  rw [Clocked.event_of_not_rst hrst] at h
  match m with
  | { st := s, busy := some ⟨t, 0⟩ } => rw [Clocked.edge_completes hrst]; rfl
  | { st := s, busy := some ⟨t, k + 1⟩ } => rw [Clocked.edge_waits hrst]; rfl
  | { st := s, busy := none } => rw [Clocked.edge_idle hrst _ rfl (by simpa using h)]

/-- An accepted command is committed on its accepting edge, whatever its latency. -/
theorem Clocked.committed_edge_of_accepts (latency : Block → Transaction → Nat) (p : Pins) (m : Clocked)
    (h : m.accepts p = true) : (m.edge latency p).committed = completed p.tx m.committed := by
  have hrst := m.rst_of_accepts h
  have hbusy : m.busy = none := by
    cases hb : m.busy with
    | none => rfl
    | some f => rw [m.accepts_of_busy f hb] at h; contradiction
  rw [m.committed_idle hbusy]
  cases hlat : latency m.st.block p.tx with
  | zero => rw [Clocked.edge_accepts_zero hrst m hbusy h hlat]; rfl
  | succ k => rw [Clocked.edge_accepts_succ hrst m hbusy h k hlat]; rfl

/-- The simulation step: the host operation an edge amounts to takes the committed state before it to the one after. -/
theorem Clocked.runOp_event (latency : Block → Transaction → Nat) (p : Pins) (m : Clocked) (op : HostOp)
    (ops : List HostOp) (h : m.event p = some op) :
    runOp op (m.committed.setOps ops) = .next ((m.edge latency p).committed.setOps ops) := by
  by_cases hp : p.rst = true
  · obtain rfl : HostOp.reset = op := Option.some.inj ((Clocked.event_of_rst hp m).symm.trans h)
    rw [Clocked.edge_of_rst hp m latency]
    exact congrArg (fun s : State => Host.Outcome.next (s.setOps ops)) m.resetBlock_committed
  · rw [Clocked.event_of_not_rst (by simpa using hp)] at h
    obtain ⟨hacc, rfl⟩ : m.accepts p = true ∧ HostOp.access (.command p.tx) = op := by simpa using h
    rw [m.committed_edge_of_accepts latency p hacc, ← completed_setOps]
    exact accept_eq_completed p.tx _

/-! ### Runs of edges -/

theorem Clocked.runEdges_cons_fst (latency : Block → Transaction → Nat) (p : Pins) (ps : List Pins) (m : Clocked) :
    (Clocked.runEdges latency (p :: ps) m).1 = (Clocked.runEdges latency ps (m.edge latency p)).1 := rfl

theorem Clocked.runEdges_cons_snd (latency : Block → Transaction → Nat) (p : Pins) (ps : List Pins) (m : Clocked) :
    (Clocked.runEdges latency (p :: ps) m).2 =
      (m.event p).toList ++ (Clocked.runEdges latency ps (m.edge latency p)).2 := rfl

/-- Settles O49, by induction on the edges: each one is a host operation of the committed state, or leaves it. -/
theorem clockEdgesRefineTransactions : Obligations.ClockEdgesRefineTransactions := by
  intro latency ps m
  induction ps generalizing m with
  | nil => rfl
  | cons p ps ih =>
    rw [Clocked.runEdges_cons_fst, Clocked.runEdges_cons_snd]
    cases hev : m.event p with
    | none => rw [← m.committed_edge_of_none latency p hev]; exact ih (m.edge latency p)
    | some op =>
      exact (runOps_cons op _ _ _ (m.runOp_event latency p op _ hev)).trans (ih (m.edge latency p))

/-- A command in flight through fewer edges than it needs. -/
theorem Clocked.runEdges_waits (latency : Block → Transaction → Nat) (s : State) (t : Transaction) (ps : List Pins)
    (left : Nat) (hps : ∀ q ∈ ps, q.rst = false) :
    (Clocked.runEdges latency ps { st := s, busy := some ⟨t, ps.length + left⟩ }).1 =
      { st := s, busy := some ⟨t, left⟩ } := by
  induction ps with
  | nil => rw [List.length_nil, Nat.zero_add]; rfl
  | cons p ps ih =>
    obtain ⟨hp, hps⟩ := List.forall_mem_cons.1 hps
    rw [Clocked.runEdges_cons_fst, List.length_cons, Nat.add_right_comm, Clocked.edge_waits hp, ih hps]

/-- A command in flight through as many edges as it needs. -/
theorem Clocked.runEdges_completes (latency : Block → Transaction → Nat) (s : State) (t : Transaction) (ps : List Pins)
    (left : Nat) (hlen : ps.length = left + 1) (hps : ∀ q ∈ ps, q.rst = false) :
    (Clocked.runEdges latency ps { st := s, busy := some ⟨t, left⟩ }).1 = { st := completed t s, busy := none } := by
  induction ps generalizing left with
  | nil => contradiction
  | cons p ps ih =>
    obtain ⟨hp, hps⟩ := List.forall_mem_cons.1 hps
    rw [Clocked.runEdges_cons_fst]
    cases left with
    | zero =>
      obtain rfl : ps = [] := List.length_eq_zero_iff.1 (Nat.succ.inj hlen)
      exact Clocked.edge_completes (latency := latency) hp s t
    | succ k => rw [Clocked.edge_waits hp, ih k (Nat.succ.inj hlen) hps]

/-- After fewer edges than the latency the command is in flight. -/
theorem Clocked.runEdges_of_lt (latency : Block → Transaction → Nat) (m : Clocked) (p : Pins) (ps : List Pins)
    (hbusy : m.busy = none) (h : m.accepts p = true) (hps : ∀ q ∈ ps, q.rst = false)
    (hlen : ps.length < latency m.st.block p.tx) :
    ∃ left, (Clocked.runEdges latency (p :: ps) m).1 = { st := m.st, busy := some ⟨p.tx, left⟩ } := by
  obtain ⟨left, hlat⟩ : ∃ left, latency m.st.block p.tx = ps.length + left + 1 :=
    ⟨latency m.st.block p.tx - ps.length - 1, by omega⟩
  refine ⟨left, ?_⟩
  rw [Clocked.runEdges_cons_fst, Clocked.edge_accepts_succ (m.rst_of_accepts h) m hbusy h _ hlat,
    Clocked.runEdges_waits latency _ _ ps left hps]

/-- After as many edges as the latency the command is complete. -/
theorem Clocked.runEdges_of_eq (latency : Block → Transaction → Nat) (m : Clocked) (p : Pins) (ps : List Pins)
    (hbusy : m.busy = none) (h : m.accepts p = true) (hps : ∀ q ∈ ps, q.rst = false)
    (hlen : ps.length = latency m.st.block p.tx) :
    (Clocked.runEdges latency (p :: ps) m).1 = { st := completed p.tx m.st, busy := none } := by
  have hrst := m.rst_of_accepts h
  rw [Clocked.runEdges_cons_fst]
  cases hlat : latency m.st.block p.tx with
  | zero =>
    obtain rfl : ps = [] := List.length_eq_zero_iff.1 (hlen.trans hlat)
    exact Clocked.edge_accepts_zero hrst m hbusy h hlat
  | succ k =>
    rw [Clocked.edge_accepts_succ hrst m hbusy h k hlat,
      Clocked.runEdges_completes latency _ _ ps k (hlen.trans hlat) hps]

/-- Settles O48: before the last edge the command is in flight over the state before it; after it the block is idle. -/
theorem acceptedCommandsCompleteInTime : Obligations.AcceptedCommandsCompleteInTime := by
  refine fun latency m p hbusy => ⟨m.accepts_idle_iff hbusy, fun h ps hps => ⟨fun hlt => ?running, fun heq => ?done⟩⟩
  case running =>
    obtain ⟨left, hrun⟩ := Clocked.runEdges_of_lt latency m p ps hbusy h hps hlt
    rw [hrun]
    exact ⟨rfl, fun q => ⟨Clocked.cmdReady_of_busy _ _ rfl, Clocked.accepts_of_busy _ _ rfl, rfl⟩⟩
  case done =>
    rw [Clocked.runEdges_of_eq latency m p ps hbusy h hps heq]
    exact ⟨accept_eq_completed p.tx m.st, rfl, fun q hq => by simp [Clocked.cmdReady, hq]⟩

end Sys2Proof.Machine
end

section
/-! Several instances (60_exceptions R100): a step of one is a change of the list at its index alone. -/

namespace Sys2Proof.Machine

theorem stepInstance_eq_set {k : Nat} {is : Instances} {s t : State} (hs : is[k]? = some s) (h : step s = .next t) :
    stepInstance k is = is.set k t := by
  simp only [stepInstance, hs, h]

/-- Settles O50: every step answers, and `List.set` changes the entry at its index alone. -/
theorem instancesShareNoState : Obligations.InstancesShareNoState := by
  intro k is s hs
  obtain ⟨t, h⟩ := step_total s
  obtain ⟨hk, _⟩ := List.getElem?_eq_some_iff.1 hs
  rw [stepInstance_eq_set hs h]
  exact ⟨List.length_set, ⟨t, h, List.getElem?_set_self hk⟩, fun j hj => List.getElem?_set_ne (Ne.symm hj)⟩

end Sys2Proof.Machine
end
